-- ==== Sys2Proof/Word.lean ====
section
/-! DEFINITION. The two sizes of datum the spec names (00_scope.md R7). -/

namespace Sys2Proof

/-- "A byte is 8 bits" (R7). -/
abbrev Byte := BitVec 8

/-- "A word is 32 bits" (R7): a register or a command word. -/
abbrev Word := BitVec 32

end Sys2Proof
end

