-- ==== Sys2Proof/Syntax.lean ====
section
/-! DEFINITION. The eighteen commands of the opcode map (30_encoding.md R75), one constructor per row of
spec/opcode_table.json. Operands are the encoded fields (R72, R73, R74); every other operand is an implicit register
(R71). -/

namespace Sys2Proof

/-- A command. `setlo`, `sethi` and `fltFilt` can hold field values the spec calls illegal: see WellFormed.lean. -/
inductive Instr where
  /-- NOP, 43_sequencer.md R180. -/
  | nop
  /-- CLRERR, R181. -/
  | clrerr
  /-- SETLO, R182: register index RD and the low half to write. -/
  | setlo (rd : BitVec 4) (imm16 : BitVec 16)
  /-- SETHI, R183: register index RD and the high half to write. -/
  | sethi (rd : BitVec 4) (imm16 : BitVec 16)
  /-- CRC.INIT, 40_crc.md R101. -/
  | crcInit
  /-- CRC.UPD, R102. -/
  | crcUpd
  /-- CRC.UPDB, R103: the byte to fold. -/
  | crcUpdb (imm8 : Byte)
  /-- CRC.CHECK, R104. -/
  | crcCheck
  /-- CRC.STORE, R105. -/
  | crcStore
  /-- FLT.START, 41_filter.md R124. -/
  | fltStart
  /-- FLT.DEFILT, R125. -/
  | fltDefilt
  /-- FLT.FILT, R126: the filter type field FT. -/
  | fltFilt (ft : BitVec 3)
  /-- FLT.SEL, R127. -/
  | fltSel
  /-- FLT.CHKLEN, R129. -/
  | fltChklen
  /-- PAL.LOAD, 42_pixel.md R152. -/
  | palLoad
  /-- PAL.TRNS, R153. -/
  | palTrns
  /-- PXC.UNPACK, R155. -/
  | pxcUnpack
  /-- PXC.PACK, R156. -/
  | pxcPack
deriving DecidableEq, Repr

end Sys2Proof
end

