-- ==== Sys2Proof/WellFormed.lean ====
section
/-! DEFINITION. Which terms of `Instr` are commands: the two operand checks of 30_encoding.md R76. -/

namespace Sys2Proof

/-- R76 items 3 and 4: FT is at most 4 in FLT.FILT, RD is at most 4 in SETLO and SETHI. -/
def Instr.wellFormed : Instr → Bool
  | .setlo rd _ => decide (rd.toNat ≤ 4)
  | .sethi rd _ => decide (rd.toNat ≤ 4)
  | .fltFilt ft => decide (ft.toNat ≤ 4)
  | .nop => true
  | .clrerr => true
  | .crcInit => true
  | .crcUpd => true
  | .crcUpdb _ => true
  | .crcCheck => true
  | .crcStore => true
  | .fltStart => true
  | .fltDefilt => true
  | .fltSel => true
  | .fltChklen => true
  | .palLoad => true
  | .palTrns => true
  | .pxcUnpack => true
  | .pxcPack => true

end Sys2Proof
end

