-- ==== Sys2Proof/Decode.lean ====
section
/-! DEFINITION. The decoder, total on every 32-bit word, which rejects an illegal word by the reason of 30_encoding.md
R76, and the encoder, written from the formats of R70 to R74 and the opcode map of R75. -/

namespace Sys2Proof

/-- Why a word is illegal: the four items of R76, in its order. -/
inductive IllegalWord where
  /-- Item 1: OP is not in the opcode map. -/
  | unassignedOp
  /-- Item 2: a bit that the format requires to be 0 is 1. -/
  | nonzeroReserved
  /-- Item 3: FLT.FILT with FT at least 5. -/
  | filterTypeOutOfRange
  /-- Item 4: SETLO or SETHI with RD at least 5. -/
  | registerOutOfRange
deriving DecidableEq, Repr

/-- OP, bits [31:24] (R70). -/
def opField (w : Word) : BitVec 8 := w.extractLsb' 24 8

/-- RD, bits [19:16] (R72). -/
def rdField (w : Word) : BitVec 4 := w.extractLsb' 16 4

/-- IMM16, bits [15:0] (R72). -/
def imm16Field (w : Word) : BitVec 16 := w.extractLsb' 0 16

/-- IMM8, bits [7:0] (R73). -/
def imm8Field (w : Word) : Byte := w.extractLsb' 0 8

/-- FT, bits [2:0] (R74). -/
def ftField (w : Word) : BitVec 3 := w.extractLsb' 0 3

/-- Format Z (R71): bits [23:0] must all be 0. -/
def decodeZ (i : Instr) (w : Word) : Except IllegalWord Instr :=
  if w.extractLsb' 0 24 = 0#24 then .ok i else .error .nonzeroReserved

/-- Format S (R72): bits [23:20] must be 0 and RD at most 4. -/
def decodeS (mk : BitVec 4 → BitVec 16 → Instr) (w : Word) : Except IllegalWord Instr :=
  if w.extractLsb' 20 4 = 0#4 then
    if (rdField w).toNat ≤ 4 then .ok (mk (rdField w) (imm16Field w)) else .error .registerOutOfRange
  else .error .nonzeroReserved

/-- Format B (R73): bits [23:8] must be 0. -/
def decodeB (mk : Byte → Instr) (w : Word) : Except IllegalWord Instr :=
  if w.extractLsb' 8 16 = 0#16 then .ok (mk (imm8Field w)) else .error .nonzeroReserved

/-- Format F (R74): bits [23:3] must be 0 and FT at most 4. -/
def decodeF (mk : BitVec 3 → Instr) (w : Word) : Except IllegalWord Instr :=
  if w.extractLsb' 3 21 = 0#21 then
    if (ftField w).toNat ≤ 4 then .ok (mk (ftField w)) else .error .filterTypeOutOfRange
  else .error .nonzeroReserved

/-- The opcode map of R75: "decode uses the whole table", and "a word's format follows from its OP field alone". -/
def decode (w : Word) : Except IllegalWord Instr :=
  match (opField w).toNat with
  | 0x00 => decodeZ .nop w
  | 0x01 => decodeZ .clrerr w
  | 0x02 => decodeS .setlo w
  | 0x03 => decodeS .sethi w
  | 0x10 => decodeZ .crcInit w
  | 0x11 => decodeZ .crcUpd w
  | 0x12 => decodeB .crcUpdb w
  | 0x13 => decodeZ .crcCheck w
  | 0x14 => decodeZ .crcStore w
  | 0x20 => decodeZ .fltStart w
  | 0x21 => decodeZ .fltDefilt w
  | 0x22 => decodeF .fltFilt w
  | 0x23 => decodeZ .fltSel w
  | 0x24 => decodeZ .fltChklen w
  | 0x30 => decodeZ .palLoad w
  | 0x31 => decodeZ .palTrns w
  | 0x32 => decodeZ .pxcUnpack w
  | 0x33 => decodeZ .pxcPack w
  | _ => .error .unassignedOp

/-- Format Z: `OP | 0x000000` (R71). -/
def encodeZ (op : BitVec 8) : Word := op ++ 0#24

/-- Format S: `OP | 0000 | RD | IMM16` (R72). -/
def encodeS (op : BitVec 8) (rd : BitVec 4) (imm16 : BitVec 16) : Word := op ++ 0#4 ++ rd ++ imm16

/-- Format B: `OP | 0x0000 | IMM8` (R73). -/
def encodeB (op : BitVec 8) (imm8 : Byte) : Word := op ++ 0#16 ++ imm8

/-- Format F: `OP | 0 | FT` (R74). -/
def encodeF (op : BitVec 8) (ft : BitVec 3) : Word := op ++ 0#21 ++ ft

/-- The word of a command (R71 to R75). On a term that is not well formed it is the illegal word with those fields. -/
def encode : Instr → Word
  | .nop => encodeZ 0x00#8
  | .clrerr => encodeZ 0x01#8
  | .setlo rd imm16 => encodeS 0x02#8 rd imm16
  | .sethi rd imm16 => encodeS 0x03#8 rd imm16
  | .crcInit => encodeZ 0x10#8
  | .crcUpd => encodeZ 0x11#8
  | .crcUpdb imm8 => encodeB 0x12#8 imm8
  | .crcCheck => encodeZ 0x13#8
  | .crcStore => encodeZ 0x14#8
  | .fltStart => encodeZ 0x20#8
  | .fltDefilt => encodeZ 0x21#8
  | .fltFilt ft => encodeF 0x22#8 ft
  | .fltSel => encodeZ 0x23#8
  | .fltChklen => encodeZ 0x24#8
  | .palLoad => encodeZ 0x30#8
  | .palTrns => encodeZ 0x31#8
  | .pxcUnpack => encodeZ 0x32#8
  | .pxcPack => encodeZ 0x33#8

/-- The host's view of the decoder: the word numbered as spec/opcode_table.json numbers it, of `nbits` bits, the bits
above them 0. Every command is exactly one 32-bit word (R79), so a longer row would be no command. -/
def decodeTableWord (nbits w : Nat) : Option Instr :=
  if nbits ≤ 32 then
    match decode (BitVec.ofNat 32 (w % 2 ^ nbits)) with
    | .ok i => some i
    | .error _ => none
  else none

end Sys2Proof
end

