-- ==== Sys2Proof/Config.lean ====
section
/-! DEFINITION. What is fixed for one block (the open parameters of 00_scope.md R6) and the free values: what the
spec leaves open, as constants with no body, so that nothing can be proved of any one of their values. -/

namespace Sys2Proof

/-- The three open parameters of R6. Every step carries them unchanged (log 3). -/
structure Params where
  /-- DMEM_SIZE: bytes of local data memory. -/
  dmemSize    : Nat
  /-- MAX_ROW_BYTES: capacity of PREV in bytes. -/
  maxRowBytes : Nat
  /-- CMDQ_DEPTH: entries of the command queue. -/
  cmdqDepth   : Nat
deriving DecidableEq, Repr

/-- The legal values of R6's table. -/
abbrev Params.Legal (p : Params) : Prop :=
  (1024 ≤ p.dmemSize ∧ p.dmemSize ≤ 2 ^ 32) ∧ (4 ≤ p.maxRowBytes ∧ p.maxRowBytes ≤ p.dmemSize) ∧
    1 ≤ p.cmdqDepth

/-- The defaults of R6's table, "used only in examples". DESIGN CHOICE (log 3): `State.reset` takes them. -/
def Params.default : Params := { dmemSize := 65536, maxRowBytes := 32768, cmdqDepth := 16 }

/-- The DMEM byte at an address after the reset numbered `epoch`: "an arbitrary value: a draw, independent per byte,
under no law" (20_memory.md R57; log 1). Safe. -/
opaque Config.dmemDraw (epoch address : Nat) : Byte

/-- Byte `channel` (0 R, 1 G, 2 B, 3 A) of a palette entry after the reset numbered `epoch`: "unspecified after reset"
(10_state.md R31, R42; log 2). Safe. -/
opaque Config.palDraw (epoch entry channel : Nat) : Byte

/-- What a SCORE register holds when the exact score of filter type `t` on this row does not fit 32 bits: the spec
states no value there (10_state.md R35; log 4). It depends only on what 41_filter.md R133 lets it depend on.
DESIGN CHOICE, safe. -/
opaque Config.scoreBeyondWord (t bpp : Nat) (row prior : List Byte) : Word

end Sys2Proof
end

