-- ==== Sys2Proof/Machine/State.lean ====
section
/-! DEFINITION. The state of the block, as plain data: every piece of state of 10_state.md and 20_memory.md, the reasons
a step can stop, and the state after reset. -/

namespace Sys2Proof.Machine

/-- The five filter types (30_encoding.md R74). -/
inductive FilterType where
  | none
  | sub
  | up
  | average
  | paeth
deriving DecidableEq, Repr

/-- The five color models (10_state.md R26). -/
inductive ColorModel where
  | grayscale
  | rgb
  | palette
  | grayscaleAlpha
  | rgbAlpha
deriving DecidableEq, Repr

/-- A palette entry or a pixel: 4 bytes R, G, B, A (10_state.md R31, 20_memory.md R52). -/
structure Rgba where
  r : Byte
  g : Byte
  b : Byte
  a : Byte
deriving DecidableEq, Repr

/-- The named errors of 60_exceptions.md R202. The block never raises `formatMismatch`, `compressionFailure` or
`decompressionFailure`: their codes are reserved for host software. -/
inductive ErrorKind where
  | formatMismatch
  | crcMismatch
  | unsupportedBitDepth
  | malformedPalette
  | malformedPixelData
  | unknownFilterType
  | unsupportedColorModel
  | compressionFailure
  | decompressionFailure
  | paletteIndexOutOfRange
  | illegalCommand
  | addressRange
  | rowTooLong
deriving DecidableEq, Repr

/-- `raise E(info)` (00_scope.md R9). -/
structure Raise where
  kind : ErrorKind
  info : Word
deriving DecidableEq, Repr

/-- DMEM: the bytes written since reset, by strictly ascending address. What an address that is not listed reads as is
`Config.dmemDraw` (log 1). -/
abbrev Memory := List Host.Cell

/-- PREV: its non-zero bytes, by strictly ascending index. An index that is not listed reads 0 (10_state.md R32). -/
abbrev RowBuffer := List Host.Cell

/-- PAL: the entries written since reset, by strictly ascending index. What an entry that is not listed reads as is
`Config.palDraw` (log 2). -/
abbrev Palette := List (Nat × Rgba)

/-- Why the model stops. No command stops: an error of the block is a next state (60_exceptions.md R226). -/
inductive Fault where
  /-- Raised by the host's reads and writes of DMEM, never by a step: the address is not in 0 to DMEM_SIZE-1
  (20_memory.md R50; log 8). Safe. -/
  | noSuchAddress (address : Nat)
deriving DecidableEq, Repr

/-- What the model refuses. No command is refused (92_eei_decisions.md D25). -/
inductive Refusal where
  /-- A command that has no meaning yet: no arm of `exec` answers it. Safe. -/
  | notModelled (mnemonic : String)
  /-- Raised by a host access other than a read of STATUS while BUSY = 1: "the host has no such step"
  (60_exceptions.md R226, 20_memory.md R50). Safe. -/
  | hostWaitsForIdle
  /-- Raised by a host push while CMDQ is full: "the host holds until the sequencer has removed one"
  (20_memory.md R60; log 9). Safe. -/
  | pushHolds
deriving DecidableEq, Repr

/-- The block. CRC_VAL, STATUS and BUSY are computed from these fields (log 15). -/
structure State where
  /-- The open parameters, the model's own field: constant (log 3). -/
  params     : Params
  /-- x[0], R22. -/
  src        : Word
  /-- x[1], R23. -/
  dst        : Word
  /-- x[2], R24. -/
  len        : Word
  /-- x[3], R25. -/
  width      : Word
  /-- x[4], R26: bits [15:0]; bits [31:16] are hard-wired to 0 (log 14). -/
  imgcfg     : BitVec 16
  /-- x[5], R28. -/
  crcAcc     : Word
  /-- STATUS.ERR, R29. -/
  err        : Bool
  /-- STATUS.PALV, R29. -/
  palv       : Bool
  /-- STATUS.LASTF, R29. -/
  lastf      : FilterType
  /-- STATUS.ERRCODE, R29. -/
  errCode    : Byte
  /-- x[8], R33. -/
  errCmd     : Word
  /-- x[9], R31. -/
  palCount   : Word
  /-- x[10], R34. -/
  rowCount   : Word
  /-- x[11], R35. -/
  scoreSub   : Word
  /-- x[12], R35. -/
  scoreUp    : Word
  /-- x[13], R35. -/
  scoreAvg   : Word
  /-- x[14], R35. -/
  scorePaeth : Word
  /-- x[15], R36. -/
  errInfo    : Word
  /-- CMDQ, the head first (R27, 20_memory.md R60). -/
  cmdq       : List Word
  /-- PREV, R32. -/
  prev       : RowBuffer
  /-- PAL, R31. -/
  pal        : Palette
  /-- DMEM, 20_memory.md R50. -/
  dmem       : Memory
  /-- How many resets this block has had, the model's own field: it selects the draws of DMEM and PAL (log 13). -/
  drawEpoch  : Nat
deriving DecidableEq, Repr

/-- The reset values of 10_state.md R42, for a block with parameters `p` whose reset draws number `epoch`. -/
def State.resetOf (p : Params) (epoch : Nat) : State where
  params     := p
  src        := 0x00000000#32
  dst        := 0x00000000#32
  len        := 0x00000000#32
  width      := 0x00000000#32
  imgcfg     := 0x0000#16
  crcAcc     := 0xFFFFFFFF#32
  err        := false
  palv       := false
  lastf      := .none
  errCode    := 0x00#8
  errCmd     := 0x00000000#32
  palCount   := 0x00000000#32
  rowCount   := 0x00000000#32
  scoreSub   := 0x00000000#32
  scoreUp    := 0x00000000#32
  scoreAvg   := 0x00000000#32
  scorePaeth := 0x00000000#32
  errInfo    := 0x00000000#32
  cmdq       := []
  prev       := []
  pal        := []
  dmem       := []
  drawEpoch  := epoch

/-- The machine right after reset (R42), with the default parameters (log 3). DESIGN CHOICE (log 13): draws number 0. -/
def State.reset : State := State.resetOf Params.default 0

end Sys2Proof.Machine
end

