-- ==== Sys2Proof/Machine/Ops.lean ====
section
/-! DEFINITION. The shared operations: storages as ascending lists of cells, DMEM, PREV and PAL reads and writes, byte
order, the range check, the error latch (entry and return), and how a command ends. -/

namespace Sys2Proof.Machine

/-! ## Storages -/

/-- The value listed under a key. -/
def entryAt {α : Type} : List (Nat × α) → Nat → Option α
  | [], _ => none
  | c :: rest, k => if c.1 = k then some c.2 else entryAt rest k

/-- A run of values under consecutive keys from `a`. -/
def numbered {α : Type} (a : Nat) : List α → List (Nat × α)
  | [] => []
  | v :: vs => (a, v) :: numbered (a + 1) vs

/-- Replace the cells of keys `a` to `a + n - 1` by `new`. -/
def spliced {α : Type} (m : List (Nat × α)) (a n : Nat) (new : List (Nat × α)) : List (Nat × α) :=
  m.filter (fun c => decide (c.1 < a)) ++ new ++ m.filter (fun c => decide (a + n ≤ c.1))

/-- Cells by strictly ascending key, each key below `bound`. -/
abbrev cellsWf {α : Type} (bound : Nat) (m : List (Nat × α)) : Prop :=
  m.Pairwise (fun c d => c.1 < d.1) ∧ ∀ c ∈ m, c.1 < bound

/-- The canonical form of DMEM. A listed byte is one written since reset. An unlisted address holds none of its own
(it reads as a draw with no body), so no entry equals what an unlisted address holds (log 1). -/
abbrev Memory.wf (size : Nat) (m : Memory) : Prop := cellsWf size m

/-- The canonical form of PREV: ascending, in range, and no entry equal to 0, which an unlisted index reads as. -/
abbrev RowBuffer.wf (size : Nat) (m : RowBuffer) : Prop := cellsWf size m ∧ ∀ c ∈ m, c.2 ≠ 0#8

/-- The canonical form of PAL: ascending, and at most 256 entries (10_state.md R31). -/
abbrev Palette.wf (m : Palette) : Prop := cellsWf 256 m

/-! ## DMEM (20_memory.md) -/

/-- `DMEM[a]`: the byte most recently written there (R56), or this reset's draw (R57; log 1). -/
def dmemByte (s : State) (a : Nat) : Byte := (entryAt s.dmem a).getD (Config.dmemDraw s.drawEpoch a)

/-- `MemRead(a, n)` (00_scope.md R9). -/
def memRead (s : State) (a n : Nat) : List Byte := (List.range n).map fun i => dmemByte s (a + i)

/-- `MemWrite(a, n, L)` with n the length of L, L[0] at the lowest address (00_scope.md R9). -/
def memWrite (s : State) (a : Nat) (bytes : List Byte) : State :=
  { s with dmem := spliced s.dmem a bytes.length (numbered a bytes) }

/-- `be32(L)`: L[0] most significant (00_scope.md R9; 20_memory.md R52). -/
def be32 (bytes : List Byte) : Word :=
  bytes.getD 0 0 ++ bytes.getD 1 0 ++ bytes.getD 2 0 ++ bytes.getD 3 0

/-- `be_bytes(v)` (00_scope.md R9). -/
def beBytes (v : Word) : List Byte :=
  [v.extractLsb' 24 8, v.extractLsb' 16 8, v.extractLsb' 8 8, v.extractLsb' 0 8]

/-- `CheckRange(a, n)`: the end is computed in exact integers, and the info is the start address (20_memory.md R53). -/
def checkRange (s : State) (a : Word) (n : Nat) : Except Raise Unit :=
  if s.params.dmemSize < a.toNat + n then .error ⟨.addressRange, a⟩ else .ok ()

/-! ## PREV (10_state.md R32) -/

/-- `PREV[x]`. -/
def prevByte (s : State) (x : Nat) : Byte := (entryAt s.prev x).getD 0

/-- `PREV[0 .. n-1]`. -/
def prevRow (s : State) (n : Nat) : List Byte := (List.range n).map (prevByte s)

/-- Write a row to PREV from index 0: "Bytes at and above ROWB are left unchanged" (R32). -/
def storePrev (s : State) (row : List Byte) : State :=
  { s with prev := spliced s.prev 0 row.length ((numbered 0 row).filter fun c => decide (c.2 ≠ 0#8)) }

/-- Set every byte of PREV to 0. -/
def clearPrev (s : State) : State := { s with prev := [] }

/-! ## PAL (10_state.md R31) -/

/-- `PAL[i]`: the entry most recently written, or this reset's draw (log 2). -/
def palEntry (s : State) (i : Nat) : Rgba :=
  (entryAt s.pal i).getD
    ⟨Config.palDraw s.drawEpoch i 0, Config.palDraw s.drawEpoch i 1, Config.palDraw s.drawEpoch i 2,
      Config.palDraw s.drawEpoch i 3⟩

/-- Write palette entries from index 0; entries above them keep their values. -/
def storePal (s : State) (entries : List Rgba) : State :=
  { s with pal := spliced s.pal 0 entries.length (numbered 0 entries) }

/-! ## The error latch (60_exceptions.md) -/

/-- The codes of R202. -/
def ErrorKind.code : ErrorKind → Byte
  | .formatMismatch => 0x01#8
  | .crcMismatch => 0x02#8
  | .unsupportedBitDepth => 0x03#8
  | .malformedPalette => 0x04#8
  | .malformedPixelData => 0x05#8
  | .unknownFilterType => 0x06#8
  | .unsupportedColorModel => 0x07#8
  | .compressionFailure => 0x08#8
  | .decompressionFailure => 0x09#8
  | .paletteIndexOutOfRange => 0x10#8
  | .illegalCommand => 0x20#8
  | .addressRange => 0x21#8
  | .rowTooLong => 0x22#8

/-- Error entry (R205) by the command word `w`: these four writes and no other. -/
def errorEntry (w : Word) (e : Raise) (s : State) : State :=
  { s with err := true, errCode := e.kind.code, errCmd := w, errInfo := e.info }

/-- Return from the error state (R207; 43_sequencer.md R181): ERRCMD and ERRINFO keep their values. -/
def errorReturn (s : State) : State := { s with err := false, errCode := 0x00#8 }

/-- How a command ends: its effect, or error entry with none of its effect (R201, R205). -/
def settle (i : Instr) (s : State) (effect : Except Raise State) : Host.Outcome State Fault Refusal :=
  .next <|
    match effect with
    | .ok t => t
    | .error e => errorEntry (encode i) e s

/-- `raise IllegalCommand(w)` (30_encoding.md R76; 60_exceptions.md R202). -/
def illegalCommand (w : Word) : Raise := ⟨.illegalCommand, w⟩

/-! ## CMDQ (20_memory.md R60) -/

/-- Remove the head word. -/
def popCmdq (s : State) : State := { s with cmdq := s.cmdq.tail }

/-- Append a word at the tail. -/
def pushCmdq (s : State) (w : Word) : State := { s with cmdq := s.cmdq ++ [w] }

/-- Put a word where the sequencer takes its next one: in place of the head, or alone in an empty queue. -/
def replaceHead (s : State) (w : Word) : State := { s with cmdq := w :: s.cmdq.tail }

end Sys2Proof.Machine
end

