-- ==== Sys2Proof/Machine/Flags.lean ====
section
/-! DEFINITION. STATUS and the other values computed from state (10_state.md R28, R29), and the updates of STATUS fields
and of the row counter. -/

namespace Sys2Proof.Machine

/-- The filter type numbers (30_encoding.md R74). -/
def FilterType.number : FilterType → Nat
  | .none => 0
  | .sub => 1
  | .up => 2
  | .average => 3
  | .paeth => 4

/-- The filter type with a number; 5 and above name none (R74). -/
def FilterType.ofNumber : Nat → Option FilterType
  | 0 => some .none
  | 1 => some .sub
  | 2 => some .up
  | 3 => some .average
  | 4 => some .paeth
  | _ => Option.none

/-- CRC_VAL: "Every read of it returns CRC_ACC xor 0xFFFFFFFF" (R28). -/
def crcVal (s : State) : Word := s.crcAcc ^^^ 0xFFFFFFFF#32

/-- BUSY: "1 while CMDQ holds at least one command word" (R29). -/
def busy (s : State) : Bool := !s.cmdq.isEmpty

/-- STATUS (R29): BUSY [31], 0 [30:16], ERRCODE [15:8], 0 [7:5], LASTF [4:2], PALV [1], ERR [0]. -/
def statusWord (s : State) : Word :=
  BitVec.ofBool (busy s) ++ 0#15 ++ s.errCode ++ 0#3 ++ BitVec.ofNat 3 s.lastf.number ++ BitVec.ofBool s.palv ++
    BitVec.ofBool s.err

/-- What a row command leaves when it completes (41_filter.md R125 to R127): PREV holds the raw row, ROW_COUNT counts
it mod 2^32 (10_state.md R34), LASTF names the filter type. -/
def rowDone (t : FilterType) (raw : List Byte) (s : State) : State :=
  { storePrev s raw with rowCount := s.rowCount + 1#32, lastf := t }

end Sys2Proof.Machine
end

