-- ==== Sys2Proof/Machine/Operands.lean ====
section
/-! DEFINITION. Operands: the register file (10_state.md R21), the halves SETLO and SETHI write, the filter type field,
and the image configuration that the filter and pixel units read (42_pixel.md R150). -/

namespace Sys2Proof.Machine

/-- `x[i]`, the register map of R21. -/
def readReg (s : State) (i : BitVec 4) : Word :=
  match i.toNat with
  | 0 => s.src
  | 1 => s.dst
  | 2 => s.len
  | 3 => s.width
  | 4 => s.imgcfg.setWidth 32
  | 5 => s.crcAcc
  | 6 => crcVal s
  | 7 => statusWord s
  | 8 => s.errCmd
  | 9 => s.palCount
  | 10 => s.rowCount
  | 11 => s.scoreSub
  | 12 => s.scoreUp
  | 13 => s.scoreAvg
  | 14 => s.scorePaeth
  | _ => s.errInfo

/-- `x[i] <- v` for the five registers commands can name; bits [31:16] of IMGCFG ignore writes (R26). No other index
reaches this operation (30_encoding.md R76), and it writes nothing there. -/
def writeOperand (s : State) (i : BitVec 4) (v : Word) : State :=
  match i.toNat with
  | 0 => { s with src := v }
  | 1 => { s with dst := v }
  | 2 => { s with len := v }
  | 3 => { s with width := v }
  | 4 => { s with imgcfg := v.setWidth 16 }
  | _ => s

/-- `{v[31:16], half}` (43_sequencer.md R182). -/
def withLowHalf (v : Word) (half : BitVec 16) : Word := v.extractLsb' 16 16 ++ half

/-- `{half, v[15:0]}` (43_sequencer.md R183). -/
def withHighHalf (v : Word) (half : BitVec 16) : Word := half ++ v.extractLsb' 0 16

/-- `RD > 4` is IllegalCommand (R182, R183; log 11). -/
def checkOperandReg (i : Instr) (rd : BitVec 4) : Except Raise Unit :=
  if rd.toNat ≤ 4 then .ok () else .error (illegalCommand (encode i))

/-- The filter type of FLT.FILT's field; FT at least 5 is IllegalCommand (30_encoding.md R76; log 11). -/
def filterOfField (i : Instr) (ft : BitVec 3) : Except Raise FilterType :=
  match FilterType.ofNumber ft.toNat with
  | some t => .ok t
  | .none => .error (illegalCommand (encode i))

/-- BIT_DEPTH, IMGCFG[7:0] (R26). -/
def bitDepth (cfg : BitVec 16) : Byte := cfg.extractLsb' 0 8

/-- COLOR_MODEL, IMGCFG[15:8] (R26). -/
def colorModelField (cfg : BitVec 16) : Byte := cfg.extractLsb' 8 8

/-- The color models' codes (R26). -/
def ColorModel.ofCode : Nat → Option ColorModel
  | 0 => some .grayscale
  | 2 => some .rgb
  | 3 => some .palette
  | 4 => some .grayscaleAlpha
  | 6 => some .rgbAlpha
  | _ => none

/-- Bytes per pixel at bit depth 8 (42_pixel.md R150). -/
def ColorModel.bpp : ColorModel → Nat
  | .grayscale => 1
  | .rgb => 3
  | .palette => 1
  | .grayscaleAlpha => 2
  | .rgbAlpha => 4

/-- The configuration check of R150: the bit depth before the color model. -/
def imageFormat (cfg : BitVec 16) : Except Raise ColorModel :=
  if bitDepth cfg = 8#8 then
    match ColorModel.ofCode (colorModelField cfg).toNat with
    | some m => .ok m
    | none => .error ⟨.unsupportedColorModel, (colorModelField cfg).setWidth 32⟩
  else .error ⟨.unsupportedBitDepth, (bitDepth cfg).setWidth 32⟩

/-- `BPP(IMGCFG)` (R150). -/
def bytesPerPixel (cfg : BitVec 16) : Except Raise Nat := (imageFormat cfg).map ColorModel.bpp

/-- ROWB = WIDTH x bpp, an exact integer (41_filter.md R120, R130). -/
def rowBytes (s : State) (bpp : Nat) : Nat := s.width.toNat * bpp

end Sys2Proof.Machine
end

