-- ==== Sys2Proof/Machine/CrcUnit.lean ====
section
/-! DEFINITION. The CRC unit (40_crc.md). -/

namespace Sys2Proof.Machine

/-- One of the eight steps that build a table entry (R100). -/
def crcShift (c : Word) : Word :=
  if c.getLsbD 0 then 0xEDB88320#32 ^^^ (c >>> 1) else c >>> 1

/-- `TABLE[n]` (R100; 10_state.md R30): constant from reset. -/
def crcTable (n : Byte) : Word :=
  crcShift (crcShift (crcShift (crcShift (crcShift (crcShift (crcShift (crcShift (n.setWidth 32))))))))

/-- Fold one byte: `TABLE[(acc xor b) & 0xFF] xor (acc >> 8)` (R102, R103). -/
def crcByte (acc : Word) (b : Byte) : Word :=
  crcTable ((acc ^^^ b.setWidth 32).extractLsb' 0 8) ^^^ (acc >>> 8)

/-- Fold bytes in order (R102). -/
def crcFold (acc : Word) (bytes : List Byte) : Word := bytes.foldl crcByte acc

/-- CRC.INIT (R101). -/
def execCrcInit (s : State) : Host.Outcome State Fault Refusal :=
  settle .crcInit s (.ok { s with crcAcc := 0xFFFFFFFF#32 })

/-- R102's pseudocode. -/
def crcUpdEffect (s : State) : Except Raise State := do
  checkRange s s.src s.len.toNat
  return { s with crcAcc := crcFold s.crcAcc (memRead s s.src.toNat s.len.toNat) }

/-- CRC.UPD (R102). -/
def execCrcUpd (s : State) : Host.Outcome State Fault Refusal := settle .crcUpd s (crcUpdEffect s)

/-- CRC.UPDB (R103). -/
def execCrcUpdb (imm8 : Byte) (s : State) : Host.Outcome State Fault Refusal :=
  settle (.crcUpdb imm8) s (.ok { s with crcAcc := crcByte s.crcAcc imm8 })

/-- R104's pseudocode. -/
def crcCheckEffect (s : State) : Except Raise State := do
  checkRange s s.src 4
  let stored := be32 (memRead s s.src.toNat 4)
  if stored = crcVal s then return s else .error ⟨.crcMismatch, stored⟩

/-- CRC.CHECK (R104). -/
def execCrcCheck (s : State) : Host.Outcome State Fault Refusal := settle .crcCheck s (crcCheckEffect s)

/-- R105's pseudocode. -/
def crcStoreEffect (s : State) : Except Raise State := do
  checkRange s s.dst 4
  return memWrite s s.dst.toNat (beBytes (crcVal s))

/-- CRC.STORE (R105). -/
def execCrcStore (s : State) : Host.Outcome State Fault Refusal := settle .crcStore s (crcStoreEffect s)

end Sys2Proof.Machine
end

