-- ==== Sys2Proof/Machine/FilterUnit.lean ====
section
/-! DEFINITION. The filter unit (41_filter.md). -/

namespace Sys2Proof.Machine

/-! ## Shared definitions -/

/-- Left neighbour a(x) in the raw row `r` (R121). -/
def leftOf (bpp : Nat) (r : List Byte) (x : Nat) : Byte := if bpp ≤ x then r.getD (x - bpp) 0 else 0

/-- Above neighbour b(x) in the previous row (R121). -/
def aboveOf (prior : List Byte) (x : Nat) : Byte := prior.getD x 0

/-- Upper-left neighbour c(x) in the previous row (R121). -/
def upperLeftOf (bpp : Nat) (prior : List Byte) (x : Nat) : Byte := if bpp ≤ x then prior.getD (x - bpp) 0 else 0

/-- `paeth(a, b, c)` in exact integers (R123, R122). -/
def paeth (a b c : Byte) : Byte :=
  let p : Int := a.toNat + b.toNat - c.toNat
  let pa := (p - a.toNat).natAbs
  let pb := (p - b.toNat).natAbs
  let pc := (p - c.toNat).natAbs
  if pa ≤ pb ∧ pa ≤ pc then a else if pb ≤ pc then b else c

/-- `pred(t, a, b, c)` (R123), the sum of Average not wrapped (R122). Every predictor is at most 255. -/
def predictor (t : FilterType) (a b c : Byte) : Nat :=
  match t with
  | .none => 0
  | .sub => a.toNat
  | .up => b.toNat
  | .average => (a.toNat + b.toNat) / 2
  | .paeth => (paeth a b c).toNat

/-- `(f + pred) mod 256`, the last step of the decode direction (R122, R125). -/
def addPredictor (f : Byte) (p : Nat) : Byte := BitVec.ofNat 8 (f.toNat + p)

/-- `(r - pred) mod 256`, the last step of the encode direction (R122, R126). -/
def subPredictor (r : Byte) (p : Nat) : Byte := BitVec.ofInt 8 ((r.toNat : Int) - p)

/-- The decode loop of R125, ascending: `done` holds the reconstructed bytes r[0 .. x-1] already made. -/
def defilterFrom (t : FilterType) (bpp : Nat) (prior : List Byte) : List Byte → List Byte → List Byte
  | done, [] => done
  | done, f :: rest =>
    let x := done.length
    let p := predictor t (leftOf bpp done x) (aboveOf prior x) (upperLeftOf bpp prior x)
    defilterFrom t bpp prior (done ++ [addPredictor f p]) rest

/-- The raw row of the filtered bytes `f` (R125). -/
def defilterBytes (t : FilterType) (bpp : Nat) (prior f : List Byte) : List Byte := defilterFrom t bpp prior [] f

/-- The filtered bytes of the raw row `r` (R126). -/
def filterBytes (t : FilterType) (bpp : Nat) (prior r : List Byte) : List Byte :=
  (List.range r.length).map fun x =>
    subPredictor (r.getD x 0) (predictor t (leftOf bpp r x) (aboveOf prior x) (upperLeftOf bpp prior x))

/-- `score(F)`: the exact sum of the absolute differences of adjacent bytes, taken as unsigned (R128). -/
def score : List Byte → Nat
  | [] => 0
  | [_] => 0
  | f :: g :: rest => ((g.toNat : Int) - f.toNat).natAbs + score (g :: rest)

/-- What a SCORE register receives: the score, or a free value where the score does not fit 32 bits (10_state.md R35;
log 4). -/
def scoreWord (t : FilterType) (bpp : Nat) (row prior : List Byte) : Word :=
  let v := score (filterBytes t bpp prior row)
  if v < 2 ^ 32 then BitVec.ofNat 32 v else Config.scoreBeyondWord t.number bpp row prior

/-- The first of Sub, Up, Average, Paeth whose exact score is the least (R127). -/
def bestFilter (bpp : Nat) (prior row : List Byte) : FilterType :=
  let sc := fun t => score (filterBytes t bpp prior row)
  let least := min (min (sc .sub) (sc .up)) (min (sc .average) (sc .paeth))
  if sc .sub = least then .sub
  else if sc .up = least then .up
  else if sc .average = least then .average
  else .paeth

/-- The row prologue (R130), after the legality check: it answers bpp. -/
def rowPrologue (s : State) : Except Raise Nat := do
  let bpp ← bytesPerPixel s.imgcfg
  if s.params.maxRowBytes < rowBytes s bpp then .error ⟨.rowTooLong, BitVec.ofNat 32 (rowBytes s bpp)⟩
  else return bpp

/-- The filter type a tag byte names; another tag raises UnknownFilterType (R125). -/
def filterOfTag (tag : Byte) : Except Raise FilterType :=
  match FilterType.ofNumber tag.toNat with
  | some t => .ok t
  | none => .error ⟨.unknownFilterType, tag.setWidth 32⟩

/-- The tagged scanline of filter type `t` (R120): the tag, then the filtered bytes. -/
def taggedRow (t : FilterType) (bpp : Nat) (prior row : List Byte) : List Byte :=
  BitVec.ofNat 8 t.number :: filterBytes t bpp prior row

/-! ## Commands -/

/-- FLT.START (R124). -/
def execFltStart (s : State) : Host.Outcome State Fault Refusal :=
  settle .fltStart s (.ok { clearPrev s with rowCount := 0#32 })

/-- R125's pseudocode. -/
def fltDefiltEffect (s : State) : Except Raise State := do
  let bpp ← rowPrologue s
  let n := rowBytes s bpp
  checkRange s s.src (1 + n)
  checkRange s s.dst n
  let tagged := memRead s s.src.toNat (1 + n)
  let t ← filterOfTag (tagged.headD 0)
  let r := defilterBytes t bpp (prevRow s n) tagged.tail
  return rowDone t r (memWrite s s.dst.toNat r)

/-- FLT.DEFILT (R125). -/
def execFltDefilt (s : State) : Host.Outcome State Fault Refusal := settle .fltDefilt s (fltDefiltEffect s)

/-- R126's pseudocode. -/
def fltFiltEffect (ft : BitVec 3) (s : State) : Except Raise State := do
  let t ← filterOfField (.fltFilt ft) ft
  let bpp ← rowPrologue s
  let n := rowBytes s bpp
  checkRange s s.src n
  checkRange s s.dst (1 + n)
  let r := memRead s s.src.toNat n
  return rowDone t r (memWrite s s.dst.toNat (taggedRow t bpp (prevRow s n) r))

/-- FLT.FILT (R126). -/
def execFltFilt (ft : BitVec 3) (s : State) : Host.Outcome State Fault Refusal :=
  settle (.fltFilt ft) s (fltFiltEffect ft s)

/-- The four SCORE registers after FLT.SEL (R127). -/
def storeScores (bpp : Nat) (prior row : List Byte) (s : State) : State :=
  { s with
    scoreSub := scoreWord .sub bpp row prior
    scoreUp := scoreWord .up bpp row prior
    scoreAvg := scoreWord .average bpp row prior
    scorePaeth := scoreWord .paeth bpp row prior }

/-- R127's pseudocode. -/
def fltSelEffect (s : State) : Except Raise State := do
  let bpp ← rowPrologue s
  let n := rowBytes s bpp
  checkRange s s.src n
  checkRange s s.dst (1 + n)
  let r := memRead s s.src.toNat n
  let prior := prevRow s n
  let best := bestFilter bpp prior r
  return rowDone best r (storeScores bpp prior r (memWrite s s.dst.toNat (taggedRow best bpp prior r)))

/-- FLT.SEL (R127). -/
def execFltSel (s : State) : Host.Outcome State Fault Refusal := settle .fltSel s (fltSelEffect s)

/-- R129's pseudocode: no RowTooLong test, and the scanline length is exact. -/
def fltChklenEffect (s : State) : Except Raise State := do
  let bpp ← bytesPerPixel s.imgcfg
  if s.len.toNat % (1 + rowBytes s bpp) = 0 then return s else .error ⟨.malformedPixelData, s.len⟩

/-- FLT.CHKLEN (R129). -/
def execFltChklen (s : State) : Host.Outcome State Fault Refusal := settle .fltChklen s (fltChklenEffect s)

end Sys2Proof.Machine
end

