-- ==== Sys2Proof/Machine/PixelUnit.lean ====
section
/-! DEFINITION. The pixel unit (42_pixel.md). -/

namespace Sys2Proof.Machine

/-- `PAL[0 .. k-1]` from a palette payload, alpha 255 (R152). -/
def paletteOf (payload : List Byte) (k : Nat) : List Rgba :=
  (List.range k).map fun i =>
    ⟨payload.getD (3 * i) 0, payload.getD (3 * i + 1) 0, payload.getD (3 * i + 2) 0, 255#8⟩

/-- R152's pseudocode. -/
def palLoadEffect (s : State) : Except Raise State := do
  if s.len.toNat % 3 ≠ 0 then .error ⟨.malformedPalette, s.len⟩
  checkRange s s.src s.len.toNat
  let payload := memRead s s.src.toNat s.len.toNat
  let k := min (s.len.toNat / 3) 256
  return { storePal s (paletteOf payload k) with palCount := BitVec.ofNat 32 k, palv := true }

/-- PAL.LOAD (R152). -/
def execPalLoad (s : State) : Host.Outcome State Fault Refusal := settle .palLoad s (palLoadEffect s)

/-- `PAL[0 .. k-1]` with the alphas of a transparency payload (R153). -/
def transparentOf (s : State) (alphas : List Byte) (k : Nat) : List Rgba :=
  (List.range k).map fun i => { palEntry s i with a := alphas.getD i 0 }

/-- R153's pseudocode. -/
def palTrnsEffect (s : State) : Except Raise State := do
  checkRange s s.src s.len.toNat
  if s.palv then
    let k := min s.len.toNat s.palCount.toNat
    return storePal s (transparentOf s (memRead s s.src.toNat s.len.toNat) k)
  else return s

/-- PAL.TRNS (R153). -/
def execPalTrns (s : State) : Host.Outcome State Fault Refusal := settle .palTrns s (palTrnsEffect s)

/-- Pixel `x` of a raw row (R151, R155). -/
def unpackPixel (m : ColorModel) (s : State) (row : List Byte) (x : Nat) : Except Raise Rgba :=
  match m with
  | .grayscale => .ok ⟨row.getD x 0, row.getD x 0, row.getD x 0, 255#8⟩
  | .grayscaleAlpha => .ok ⟨row.getD (2 * x) 0, row.getD (2 * x) 0, row.getD (2 * x) 0, row.getD (2 * x + 1) 0⟩
  | .palette =>
    let i := row.getD x 0
    if s.palCount.toNat ≤ i.toNat then .error ⟨.paletteIndexOutOfRange, i.setWidth 32⟩
    else .ok (palEntry s i.toNat)
  | .rgb => .ok ⟨row.getD (3 * x) 0, row.getD (3 * x + 1) 0, row.getD (3 * x + 2) 0, 255#8⟩
  | .rgbAlpha =>
    .ok ⟨row.getD (4 * x) 0, row.getD (4 * x + 1) 0, row.getD (4 * x + 2) 0, row.getD (4 * x + 3) 0⟩

/-- The loop of R155 from pixel `x`, ascending: the first bad index is the one raised. -/
def unpackFrom (m : ColorModel) (s : State) (row : List Byte) (x : Nat) : Nat → Except Raise (List Rgba)
  | 0 => .ok []
  | k + 1 => do
    let p ← unpackPixel m s row x
    let rest ← unpackFrom m s row (x + 1) k
    return p :: rest

/-- The bytes of an RGBA row (R154; 20_memory.md R52). -/
def pixelBytes : List Rgba → List Byte
  | [] => []
  | p :: rest => p.r :: p.g :: p.b :: p.a :: pixelBytes rest

/-- R155's pseudocode. -/
def pxcUnpackEffect (s : State) : Except Raise State := do
  let m ← imageFormat s.imgcfg
  let w := s.width.toNat
  checkRange s s.src (rowBytes s m.bpp)
  checkRange s s.dst (4 * w)
  let pixels ← unpackFrom m s (memRead s s.src.toNat (rowBytes s m.bpp)) 0 w
  return memWrite s s.dst.toNat (pixelBytes pixels)

/-- PXC.UNPACK (R155). -/
def execPxcUnpack (s : State) : Host.Outcome State Fault Refusal := settle .pxcUnpack s (pxcUnpackEffect s)

/-- R156's pseudocode. -/
def pxcPackEffect (s : State) : Except Raise State := do
  let n := 4 * s.width.toNat
  checkRange s s.src n
  checkRange s s.dst n
  return memWrite s s.dst.toNat (memRead s s.src.toNat n)

/-- PXC.PACK (R156). -/
def execPxcPack (s : State) : Host.Outcome State Fault Refusal := settle .pxcPack s (pxcPackEffect s)

end Sys2Proof.Machine
end

