-- ==== Sys2Proof/Machine/SequencerUnit.lean ====
section
/-! DEFINITION. The sequencer commands (43_sequencer.md). -/

namespace Sys2Proof.Machine

/-- NOP (R180): nothing. -/
def execNop (s : State) : Host.Outcome State Fault Refusal := settle .nop s (.ok s)

/-- CLRERR (R181): ERR and ERRCODE to 0. -/
def execClrerr (s : State) : Host.Outcome State Fault Refusal := settle .clrerr s (.ok (errorReturn s))

/-- R182's pseudocode. -/
def setloEffect (rd : BitVec 4) (imm16 : BitVec 16) (s : State) : Except Raise State := do
  checkOperandReg (.setlo rd imm16) rd
  return writeOperand s rd (withLowHalf (readReg s rd) imm16)

/-- SETLO (R182). -/
def execSetlo (rd : BitVec 4) (imm16 : BitVec 16) (s : State) : Host.Outcome State Fault Refusal :=
  settle (.setlo rd imm16) s (setloEffect rd imm16 s)

/-- R183's pseudocode. -/
def sethiEffect (rd : BitVec 4) (imm16 : BitVec 16) (s : State) : Except Raise State := do
  checkOperandReg (.sethi rd imm16) rd
  return writeOperand s rd (withHighHalf (readReg s rd) imm16)

/-- SETHI (R183). -/
def execSethi (rd : BitVec 4) (imm16 : BitVec 16) (s : State) : Host.Outcome State Fault Refusal :=
  settle (.sethi rd imm16) s (sethiEffect rd imm16 s)

end Sys2Proof.Machine
end

