-- ==== Sys2Proof/Machine/Dispatch.lean ====
section
/-! DEFINITION. One arm per command of the opcode map (30_encoding.md R75). -/

namespace Sys2Proof.Machine

def exec (i : Instr) (s : State) : Host.Outcome State Fault Refusal :=
  match i with
  | .nop => Sys2Proof.Machine.execNop s
  | .clrerr => Sys2Proof.Machine.execClrerr s
  | .setlo rd imm16 => Sys2Proof.Machine.execSetlo rd imm16 s
  | .sethi rd imm16 => Sys2Proof.Machine.execSethi rd imm16 s
  | .crcInit => Sys2Proof.Machine.execCrcInit s
  | .crcUpd => Sys2Proof.Machine.execCrcUpd s
  | .crcUpdb imm8 => Sys2Proof.Machine.execCrcUpdb imm8 s
  | .crcCheck => Sys2Proof.Machine.execCrcCheck s
  | .crcStore => Sys2Proof.Machine.execCrcStore s
  | .fltStart => Sys2Proof.Machine.execFltStart s
  | .fltDefilt => Sys2Proof.Machine.execFltDefilt s
  | .fltFilt ft => Sys2Proof.Machine.execFltFilt ft s
  | .fltSel => Sys2Proof.Machine.execFltSel s
  | .fltChklen => Sys2Proof.Machine.execFltChklen s
  | .palLoad => Sys2Proof.Machine.execPalLoad s
  | .palTrns => Sys2Proof.Machine.execPalTrns s
  | .pxcUnpack => Sys2Proof.Machine.execPxcUnpack s
  | .pxcPack => Sys2Proof.Machine.execPxcPack s

end Sys2Proof.Machine
end

