-- ==== Sys2Proof/Machine/SequencerStep.lean ====
section
/-! DEFINITION. The sequencer's step (60_exceptions.md R200, R206). -/

namespace Sys2Proof.Machine

/-- R206: while ERR = 1, every word but exactly CLRERR's is discarded. -/
def discards (w : Word) (s : State) : Bool := s.err && decide (w ≠ 0x01000000#32)

/-- R200 after the head word `w` has been removed: discard it, execute it, or raise IllegalCommand. -/
def runWord (w : Word) (s : State) : Host.Outcome State Fault Refusal :=
  if discards w s then .next s
  else
    match decode w with
    | .ok i => exec i s
    | .error _ => .next (errorEntry w (illegalCommand w) s)

/-- One step: with CMDQ empty the block idles and loses no state (R225). DESIGN CHOICE, safe (log 5): the idle step is
an outcome of this function, which the spec does not call a step. -/
def sequencerStep (s : State) : Host.Outcome State Fault Refusal :=
  match s.cmdq with
  | [] => .next s
  | w :: _ => runWord w (popCmdq s)

end Sys2Proof.Machine
end

