-- ==== Sys2Proof/Machine/Step.lean ====
section
/-! DEFINITION. One step of the machine, and where it takes its next command word from (10_state.md R27). -/

namespace Sys2Proof.Machine

/-- The machine's step is the sequencer's (log 7: host actions are HostPort.lean's). -/
def step (s : State) : Host.Outcome State Fault Refusal := sequencerStep s

/-- The word of `nbits` bits as CMDQ's head (log 6): the next step takes it. -/
def State.withFetchWord (s : State) (nbits w : Nat) : State := replaceHead s (BitVec.ofNat 32 (w % 2 ^ nbits))

end Sys2Proof.Machine
end

