-- ==== Sys2Proof/Machine/Assembler.lean ====
section
/-! DEFINITION. The assembler of 30_encoding.md R81 and the pseudo-instructions of R82. It stands beside the machine: no
step uses it. One line of text is read at a time. -/

namespace Sys2Proof.Machine

/-- The pseudo-instructions of R82. -/
inductive Pseudo where
  /-- `li <reg>, <imm32>`. -/
  | li (rd : BitVec 4) (imm32 : Word)
  /-- `cfg <bit_depth>, <color_model>`. -/
  | cfg (bitDepth colorModel : Byte)
  /-- `crc.tag "<c0c1c2c3>"`. -/
  | crcTag (c0 c1 c2 c3 : Byte)
  /-- `flt.none`. -/
  | fltNone
  /-- `flt.sub`. -/
  | fltSub
  /-- `flt.up`. -/
  | fltUp
  /-- `flt.avg`. -/
  | fltAvg
  /-- `flt.paeth`. -/
  | fltPaeth
deriving DecidableEq, Repr

/-- `li` expands to "always both words" (R82). -/
def liExpansion (rd : BitVec 4) (imm32 : Word) : List Instr :=
  [.setlo rd (imm32.extractLsb' 0 16), .sethi rd (imm32.extractLsb' 16 16)]

/-- R82's table of expansions. -/
def Pseudo.expand : Pseudo → List Instr
  | .li rd imm32 => liExpansion rd imm32
  | .cfg bitDepth colorModel => liExpansion 4#4 (0#16 ++ colorModel ++ bitDepth)
  | .crcTag c0 c1 c2 c3 => [.crcUpdb c0, .crcUpdb c1, .crcUpdb c2, .crcUpdb c3]
  | .fltNone => [.fltFilt 0#3]
  | .fltSub => [.fltFilt 1#3]
  | .fltUp => [.fltFilt 2#3]
  | .fltAvg => [.fltFilt 3#3]
  | .fltPaeth => [.fltFilt 4#3]

/-- What a line is made of: bare words, character literals, four-character strings (as `crc.tag` takes), commas. -/
inductive Token where
  | word (chars : List Char)
  | charLit (c : Char)
  | tagLit (c0 c1 c2 c3 : Char)
  | comma
deriving DecidableEq, Repr

/-- The bare word read so far (its characters in reverse) before the tokens after it. -/
def flushWord (pending : List Char) (rest : List Token) : List Token :=
  match pending with
  | [] => rest
  | _ => .word pending.reverse :: rest

/-- The tokens of a line; `;` starts a comment (R81). DESIGN CHOICE (log 17): blanks end a word, and `;`, `,` and `"`
inside a literal are the literal's. -/
def tokensFrom (pending : List Char) : List Char → List Token
  | [] => flushWord pending []
  | '\'' :: c :: '\'' :: rest => flushWord pending (.charLit c :: tokensFrom [] rest)
  | '"' :: c0 :: c1 :: c2 :: c3 :: '"' :: rest => flushWord pending (.tagLit c0 c1 c2 c3 :: tokensFrom [] rest)
  | c :: rest =>
    if c = ';' then flushWord pending []
    else if c = ',' then flushWord pending (.comma :: tokensFrom [] rest)
    else if c = ' ' ∨ c = '\t' then flushWord pending (tokensFrom [] rest)
    else tokensFrom (c :: pending) rest

/-- A mnemonic "in lower or upper case" (R81), as its lower-case name. -/
def mnemonicName (chars : List Char) : Option String :=
  if chars = chars.map Char.toLower ∨ chars = chars.map Char.toUpper then some (String.ofList (chars.map Char.toLower))
  else none

/-- The value of a digit, in base 16. -/
def digitValue (c : Char) : Option Nat :=
  if '0' ≤ c ∧ c ≤ '9' then some (c.toNat - '0'.toNat)
  else if 'a' ≤ c ∧ c ≤ 'f' then some (c.toNat - 'a'.toNat + 10)
  else if 'A' ≤ c ∧ c ≤ 'F' then some (c.toNat - 'A'.toNat + 10)
  else none

/-- The value of digits in a base, after digits worth `acc`. -/
def digitsFrom (base acc : Nat) : List Char → Option Nat
  | [] => some acc
  | c :: rest =>
    match digitValue c with
    | some d => if d < base then digitsFrom base (base * acc + d) rest else none
    | none => none

/-- "a decimal or `0x` literal" (R81). -/
def literalValue : List Char → Option Nat
  | [] => none
  | '0' :: 'x' :: d :: rest => digitsFrom 16 0 (d :: rest)
  | chars => digitsFrom 10 0 chars

/-- A literal below `bound`: "An assembler refuses an operand out of range" (R81). -/
def literalBelow (bound : Nat) : Token → Option Nat
  | .word chars =>
    match literalValue chars with
    | some v => if v < bound then some v else none
    | none => none
  | _ => none

/-- The ASCII code of a character. -/
def asciiByte (c : Char) : Option Byte := if c.toNat < 128 then some (BitVec.ofNat 8 c.toNat) else none

/-- `<reg>` of R81. -/
def regOperand : Token → Option (BitVec 4)
  | .word chars =>
    match String.ofList chars with
    | "src" => some 0#4
    | "dst" => some 1#4
    | "len" => some 2#4
    | "width" => some 3#4
    | "imgcfg" => some 4#4
    | "x0" => some 0#4
    | "x1" => some 1#4
    | "x2" => some 2#4
    | "x3" => some 3#4
    | "x4" => some 4#4
    | _ => none
  | _ => none

/-- `<imm8>` of R81: a literal from 0 to 255 or a character literal. -/
def imm8Operand : Token → Option Byte
  | .charLit c => asciiByte c
  | t => (literalBelow 256 t).map (BitVec.ofNat 8)

/-- `<ft>` of R81: 0 to 4, or a name. -/
def filterOperand : Token → Option (BitVec 3)
  | .word chars =>
    match String.ofList chars with
    | "none" => some 0#3
    | "sub" => some 1#3
    | "up" => some 2#3
    | "avg" => some 3#3
    | "paeth" => some 4#3
    | _ => (literalBelow 5 (.word chars)).map (BitVec.ofNat 3)
  | _ => none

/-- The commands and pseudo-instructions with no operand. -/
def assemble0 (name : String) : Option (List Instr) :=
  match name with
  | "nop" => some [.nop]
  | "clrerr" => some [.clrerr]
  | "crc.init" => some [.crcInit]
  | "crc.upd" => some [.crcUpd]
  | "crc.check" => some [.crcCheck]
  | "crc.store" => some [.crcStore]
  | "flt.start" => some [.fltStart]
  | "flt.defilt" => some [.fltDefilt]
  | "flt.sel" => some [.fltSel]
  | "flt.chklen" => some [.fltChklen]
  | "pal.load" => some [.palLoad]
  | "pal.trns" => some [.palTrns]
  | "pxc.unpack" => some [.pxcUnpack]
  | "pxc.pack" => some [.pxcPack]
  | "flt.none" => some Pseudo.fltNone.expand
  | "flt.sub" => some Pseudo.fltSub.expand
  | "flt.up" => some Pseudo.fltUp.expand
  | "flt.avg" => some Pseudo.fltAvg.expand
  | "flt.paeth" => some Pseudo.fltPaeth.expand
  | _ => none

/-- `crc.updb`, `flt.filt` and `crc.tag`. -/
def assemble1 (name : String) (t : Token) : Option (List Instr) :=
  match name with
  | "crc.updb" => (imm8Operand t).map fun b => [.crcUpdb b]
  | "flt.filt" => (filterOperand t).map fun ft => [.fltFilt ft]
  | "crc.tag" =>
    match t with
    | .tagLit c0 c1 c2 c3 =>
      match asciiByte c0, asciiByte c1, asciiByte c2, asciiByte c3 with
      | some b0, some b1, some b2, some b3 => some (Pseudo.crcTag b0 b1 b2 b3).expand
      | _, _, _, _ => none
    | _ => none
  | _ => none

/-- `setlo`, `sethi`, `li` and `cfg`. -/
def assemble2 (name : String) (t u : Token) : Option (List Instr) :=
  match name with
  | "setlo" =>
    match regOperand t, literalBelow (2 ^ 16) u with
    | some rd, some v => some [.setlo rd (BitVec.ofNat 16 v)]
    | _, _ => none
  | "sethi" =>
    match regOperand t, literalBelow (2 ^ 16) u with
    | some rd, some v => some [.sethi rd (BitVec.ofNat 16 v)]
    | _, _ => none
  | "li" =>
    match regOperand t, literalBelow (2 ^ 32) u with
    | some rd, some v => some (Pseudo.li rd (BitVec.ofNat 32 v)).expand
    | _, _ => none
  | "cfg" =>
    match literalBelow 256 t, literalBelow 256 u with
    | some bd, some cm => some (Pseudo.cfg (BitVec.ofNat 8 bd) (BitVec.ofNat 8 cm)).expand
    | _, _ => none
  | _ => none

/-- The commands one line stands for (R81, R82): none for a blank or comment line; no answer for a line the assembler
refuses. -/
def assembleLine (line : List Char) : Option (List Instr) :=
  match tokensFrom [] line with
  | [] => some []
  | .word m :: operands =>
    match mnemonicName m with
    | none => none
    | some name =>
      match operands with
      | [] => assemble0 name
      | [t] => assemble1 name t
      | [t, .comma, u] => assemble2 name t u
      | _ => none
  | _ => none

/-- The command words of a program text, line by line, in push order (R81: "One command per line"). -/
def assemble : List (List Char) → Option (List Word)
  | [] => some []
  | line :: rest =>
    match assembleLine line, assemble rest with
    | some is, some ws => some (is.map encode ++ ws)
    | _, _ => none

end Sys2Proof.Machine
end

