-- ==== Sys2Proof/Machine/HostPort.lean ====
section
/-! DEFINITION. The host's interactions with the block, "exactly these" (10_state.md R20), each as a function of the
state (log 7). -/

namespace Sys2Proof.Machine

/-- R20 items 1 to 5. -/
inductive HostAction where
  /-- Item 1: push a command word. -/
  | push (w : Word)
  /-- Item 2: read STATUS. -/
  | readStatus
  /-- Item 3: read x[i]. -/
  | readReg (i : BitVec 4)
  /-- Item 4: read one DMEM byte. -/
  | readDmem (a : Nat)
  /-- Item 4: write one DMEM byte. -/
  | writeDmem (a : Nat) (b : Byte)
  /-- Item 5: assert reset. -/
  | reset
deriving DecidableEq, Repr

/-- What the host receives. -/
inductive HostReply where
  | done
  | word (w : Word)
  | byte (b : Byte)
deriving DecidableEq, Repr

/-- A push appends at the tail, or holds while CMDQ is full (20_memory.md R60; log 9). -/
def hostPush (w : Word) (s : State) : Host.Outcome (State × HostReply) Fault Refusal :=
  if s.cmdq.length < s.params.cmdqDepth then .next (pushCmdq s w, .done) else .refused .pushHolds

/-- STATUS may be read at any time (R20). -/
def hostReadStatus (s : State) : Host.Outcome (State × HostReply) Fault Refusal := .next (s, .word (statusWord s))

/-- A register other than STATUS is read only while BUSY = 0 (R20, R37; 60_exceptions.md R226; log 10). -/
def hostReadReg (i : BitVec 4) (s : State) : Host.Outcome (State × HostReply) Fault Refusal :=
  if busy s ∧ i ≠ 7#4 then .refused .hostWaitsForIdle else .next (s, .word (readReg s i))

/-- A DMEM byte is read only while BUSY = 0 (20_memory.md R50). -/
def hostReadDmem (a : Nat) (s : State) : Host.Outcome (State × HostReply) Fault Refusal :=
  if busy s then .refused .hostWaitsForIdle
  else if a < s.params.dmemSize then .next (s, .byte (dmemByte s a))
  else .fault (.noSuchAddress a)

/-- A DMEM byte is written only while BUSY = 0 (20_memory.md R50). -/
def hostWriteDmem (a : Nat) (b : Byte) (s : State) : Host.Outcome (State × HostReply) Fault Refusal :=
  if busy s then .refused .hostWaitsForIdle
  else if a < s.params.dmemSize then .next (memWrite s a [b], .done)
  else .fault (.noSuchAddress a)

/-- Reset (70_reset_and_hazards.md R230): the values of 10_state.md R42, with fresh draws for DMEM and PAL (log 13). -/
def hostReset (s : State) : Host.Outcome (State × HostReply) Fault Refusal :=
  .next (State.resetOf s.params (s.drawEpoch + 1), .done)

/-- One host action, between two sequencer steps. -/
def hostStep (act : HostAction) (s : State) : Host.Outcome (State × HostReply) Fault Refusal :=
  match act with
  | .push w => hostPush w s
  | .readStatus => hostReadStatus s
  | .readReg i => hostReadReg i s
  | .readDmem a => hostReadDmem a s
  | .writeDmem a b => hostWriteDmem a b s
  | .reset => hostReset s

end Sys2Proof.Machine
end

