-- ==== Sys2Proof/Safety.lean ====
section
/-! DEFINITION. What a claim about runs is stated with: the invariant of the block, the executions of 20_memory.md R61
and their fairness (70_reset_and_hazards.md R243), and the postcondition of 60_exceptions.md R226. -/

namespace Sys2Proof.Machine

/-- The codes the block writes (60_exceptions.md R202): not 0x01, 0x08 or 0x09. -/
def writtenCodes : List Byte :=
  [0x02#8, 0x03#8, 0x04#8, 0x05#8, 0x06#8, 0x07#8, 0x10#8, 0x20#8, 0x21#8, 0x22#8]

/-- What holds of the block in every state a run reaches. -/
structure State.Inv (s : State) : Prop where
  /-- The parameters are legal (00_scope.md R6). -/
  paramsLegal   : s.params.Legal
  /-- DMEM keeps its canonical form, in addresses 0 to DMEM_SIZE-1 (20_memory.md R50). -/
  dmemWf        : Memory.wf s.params.dmemSize s.dmem
  /-- PREV keeps its canonical form, in indices 0 to MAX_ROW_BYTES-1 (10_state.md R32). -/
  prevWf        : RowBuffer.wf s.params.maxRowBytes s.prev
  /-- PAL keeps its canonical form, in entries 0 to 255 (10_state.md R31). -/
  palWf         : Palette.wf s.pal
  /-- PAL_COUNT holds 0 to 256 (10_state.md R31). -/
  palCountRange : s.palCount.toNat ≤ 256
  /-- Entries below PAL_COUNT have been written since reset, so no command reads an unspecified one (R31). -/
  palLoaded     : ∀ i < s.palCount.toNat, (entryAt s.pal i).isSome = true
  /-- No palette is counted before one is loaded (42_pixel.md R155). -/
  palvCount     : s.palv = false → s.palCount = 0#32
  /-- ERRCODE is 0x00 without an error, and one of the written codes with one (60_exceptions.md R202, R205, R207). -/
  errCodeMeans  : (s.err = false ∧ s.errCode = 0x00#8) ∨ (s.err = true ∧ s.errCode ∈ writtenCodes)
  /-- CMDQ holds at most CMDQ_DEPTH words (20_memory.md R60). -/
  cmdqFits      : s.cmdq.length ≤ s.params.cmdqDepth

/-- The states of the executions of 20_memory.md R61: from a reset, every interleaving of sequencer steps (each enabled
exactly when CMDQ is non-empty, R60) and host actions. -/
inductive Reachable (p : Params) : State → Prop where
  | reset (epoch : Nat) : Reachable p (State.resetOf p epoch)
  | sequencer {s t : State} : Reachable p s → s.cmdq ≠ [] → step s = .next t → Reachable p t
  | host {s t : State} {act : HostAction} {reply : HostReply} :
      Reachable p s → hostStep act s = .next (t, reply) → Reachable p t

/-- What can happen next: the sequencer takes its step, the host acts, or nothing moves for a while. -/
inductive Event where
  | sequencer
  | host (act : HostAction) (reply : HostReply)
  | idle
deriving DecidableEq, Repr

/-- An event leads from one state to the next. The sequencer's step is enabled exactly when CMDQ is non-empty
(20_memory.md R60). -/
def Takes (s : State) (e : Event) (t : State) : Prop :=
  match e with
  | .sequencer => s.cmdq ≠ [] ∧ step s = .next t
  | .host act reply => hostStep act s = .next (t, reply)
  | .idle => t = s

/-- An unending execution from a reset: one interleaving of steps and host actions (20_memory.md R61). -/
structure Execution (p : Params) (states : Nat → State) (events : Nat → Event) : Prop where
  starts : ∃ epoch, states 0 = State.resetOf p epoch
  moves  : ∀ n, Takes (states n) (events n) (states (n + 1))

/-- Weak fairness (70_reset_and_hazards.md R243): "while CMDQ is non-empty, the sequencer eventually takes a step". -/
def WeaklyFair (states : Nat → State) (events : Nat → Event) : Prop :=
  ∀ n, ∃ m, n ≤ m ∧ ((states m).cmdq = [] ∨ events m = .sequencer)

/-- The end of a run with its work done (60_exceptions.md R226; 70_reset_and_hazards.md R242): CMDQ is empty and
STATUS.ERR = 0. -/
def State.completed (s : State) : Bool := !busy s && !s.err

end Sys2Proof.Machine
end

