-- ==== Sys2Proof/Certificates/Slice0/Obligations.lean ====
section
/-! DEFINITION. The statements for the provers. Each is written in the spec's own terms: register numbers, natural
numbers, and reads of single bytes, not the model's loops. The vocabulary is in namespace Sys2Proof.Claims; the
statements follow as Obligations.<Name>. -/

namespace Sys2Proof.Claims

open Sys2Proof.Machine

/-! ## Vocabulary -/

/-- The value of x[i] as a natural number. -/
def reg (s : State) (i : Nat) : Nat := (readReg s (BitVec.ofNat 4 i)).toNat

/-- DMEM[a] as a natural number. -/
def mem (s : State) (a : Nat) : Nat := (dmemByte s a).toNat

/-- PREV[x] as a natural number. -/
def prevAt (s : State) (x : Nat) : Nat := (prevByte s x).toNat

/-- Every DMEM byte outside [a, a+n) reads as before. -/
def SameDmemOutside (a n : Nat) (s t : State) : Prop := ∀ x, x < a ∨ a + n ≤ x → dmemByte t x = dmemByte s x

/-- Error entry (60_exceptions.md R205): these four writes and no other. -/
def errored (w : Word) (code : Byte) (info : Word) (s : State) : State :=
  { s with err := true, errCode := code, errCmd := w, errInfo := info }

/-- The command ends in error entry, with one of the codes the block writes (60_exceptions.md R202, R205). -/
def EntersError (i : Instr) (s t : State) : Prop := ∃ code ∈ writtenCodes, ∃ info, t = errored (encode i) code info s

/-- The color models and their bytes per pixel (42_pixel.md R150). -/
def bppTable : List (Nat × Nat) := [(0, 1), (2, 3), (3, 1), (4, 2), (6, 4)]

/-- IMGCFG holds bit depth 8 and the color model `cm`, whose bytes per pixel are `bpp`. -/
def Configured (s : State) (cm bpp : Nat) : Prop :=
  reg s 4 % 256 = 8 ∧ reg s 4 / 256 = cm ∧ (cm, bpp) ∈ bppTable

/-- A word is legal: the pseudocode of 30_encoding.md R76 on the word as a number. -/
def LegalWord (w : Nat) : Prop :=
  (w / 2 ^ 24 ∈ [0x00, 0x01, 0x10, 0x11, 0x13, 0x14, 0x20, 0x21, 0x23, 0x24, 0x30, 0x31, 0x32, 0x33] ∧
      w % 2 ^ 24 = 0) ∨
    (w / 2 ^ 24 ∈ [0x02, 0x03] ∧ w / 2 ^ 20 % 16 = 0 ∧ w / 2 ^ 16 % 16 ≤ 4) ∨
    (w / 2 ^ 24 = 0x12 ∧ w / 2 ^ 8 % 2 ^ 16 = 0) ∨
    (w / 2 ^ 24 = 0x22 ∧ w / 2 ^ 3 % 2 ^ 21 = 0 ∧ w % 8 ≤ 4)

/-! ### CRC (40_crc.md) -/

/-- Rows 0x00 to 0x38 of R100's table. -/
def tableRows0 : List Nat :=
  [ 0x00000000, 0x77073096, 0xEE0E612C, 0x990951BA, 0x076DC419, 0x706AF48F, 0xE963A535, 0x9E6495A3,
    0x0EDB8832, 0x79DCB8A4, 0xE0D5E91E, 0x97D2D988, 0x09B64C2B, 0x7EB17CBD, 0xE7B82D07, 0x90BF1D91,
    0x1DB71064, 0x6AB020F2, 0xF3B97148, 0x84BE41DE, 0x1ADAD47D, 0x6DDDE4EB, 0xF4D4B551, 0x83D385C7,
    0x136C9856, 0x646BA8C0, 0xFD62F97A, 0x8A65C9EC, 0x14015C4F, 0x63066CD9, 0xFA0F3D63, 0x8D080DF5,
    0x3B6E20C8, 0x4C69105E, 0xD56041E4, 0xA2677172, 0x3C03E4D1, 0x4B04D447, 0xD20D85FD, 0xA50AB56B,
    0x35B5A8FA, 0x42B2986C, 0xDBBBC9D6, 0xACBCF940, 0x32D86CE3, 0x45DF5C75, 0xDCD60DCF, 0xABD13D59,
    0x26D930AC, 0x51DE003A, 0xC8D75180, 0xBFD06116, 0x21B4F4B5, 0x56B3C423, 0xCFBA9599, 0xB8BDA50F,
    0x2802B89E, 0x5F058808, 0xC60CD9B2, 0xB10BE924, 0x2F6F7C87, 0x58684C11, 0xC1611DAB, 0xB6662D3D ]

/-- Rows 0x40 to 0x78 of R100's table. -/
def tableRows1 : List Nat :=
  [ 0x76DC4190, 0x01DB7106, 0x98D220BC, 0xEFD5102A, 0x71B18589, 0x06B6B51F, 0x9FBFE4A5, 0xE8B8D433,
    0x7807C9A2, 0x0F00F934, 0x9609A88E, 0xE10E9818, 0x7F6A0DBB, 0x086D3D2D, 0x91646C97, 0xE6635C01,
    0x6B6B51F4, 0x1C6C6162, 0x856530D8, 0xF262004E, 0x6C0695ED, 0x1B01A57B, 0x8208F4C1, 0xF50FC457,
    0x65B0D9C6, 0x12B7E950, 0x8BBEB8EA, 0xFCB9887C, 0x62DD1DDF, 0x15DA2D49, 0x8CD37CF3, 0xFBD44C65,
    0x4DB26158, 0x3AB551CE, 0xA3BC0074, 0xD4BB30E2, 0x4ADFA541, 0x3DD895D7, 0xA4D1C46D, 0xD3D6F4FB,
    0x4369E96A, 0x346ED9FC, 0xAD678846, 0xDA60B8D0, 0x44042D73, 0x33031DE5, 0xAA0A4C5F, 0xDD0D7CC9,
    0x5005713C, 0x270241AA, 0xBE0B1010, 0xC90C2086, 0x5768B525, 0x206F85B3, 0xB966D409, 0xCE61E49F,
    0x5EDEF90E, 0x29D9C998, 0xB0D09822, 0xC7D7A8B4, 0x59B33D17, 0x2EB40D81, 0xB7BD5C3B, 0xC0BA6CAD ]

/-- Rows 0x80 to 0xB8 of R100's table. -/
def tableRows2 : List Nat :=
  [ 0xEDB88320, 0x9ABFB3B6, 0x03B6E20C, 0x74B1D29A, 0xEAD54739, 0x9DD277AF, 0x04DB2615, 0x73DC1683,
    0xE3630B12, 0x94643B84, 0x0D6D6A3E, 0x7A6A5AA8, 0xE40ECF0B, 0x9309FF9D, 0x0A00AE27, 0x7D079EB1,
    0xF00F9344, 0x8708A3D2, 0x1E01F268, 0x6906C2FE, 0xF762575D, 0x806567CB, 0x196C3671, 0x6E6B06E7,
    0xFED41B76, 0x89D32BE0, 0x10DA7A5A, 0x67DD4ACC, 0xF9B9DF6F, 0x8EBEEFF9, 0x17B7BE43, 0x60B08ED5,
    0xD6D6A3E8, 0xA1D1937E, 0x38D8C2C4, 0x4FDFF252, 0xD1BB67F1, 0xA6BC5767, 0x3FB506DD, 0x48B2364B,
    0xD80D2BDA, 0xAF0A1B4C, 0x36034AF6, 0x41047A60, 0xDF60EFC3, 0xA867DF55, 0x316E8EEF, 0x4669BE79,
    0xCB61B38C, 0xBC66831A, 0x256FD2A0, 0x5268E236, 0xCC0C7795, 0xBB0B4703, 0x220216B9, 0x5505262F,
    0xC5BA3BBE, 0xB2BD0B28, 0x2BB45A92, 0x5CB36A04, 0xC2D7FFA7, 0xB5D0CF31, 0x2CD99E8B, 0x5BDEAE1D ]

/-- Rows 0xC0 to 0xF8 of R100's table. -/
def tableRows3 : List Nat :=
  [ 0x9B64C2B0, 0xEC63F226, 0x756AA39C, 0x026D930A, 0x9C0906A9, 0xEB0E363F, 0x72076785, 0x05005713,
    0x95BF4A82, 0xE2B87A14, 0x7BB12BAE, 0x0CB61B38, 0x92D28E9B, 0xE5D5BE0D, 0x7CDCEFB7, 0x0BDBDF21,
    0x86D3D2D4, 0xF1D4E242, 0x68DDB3F8, 0x1FDA836E, 0x81BE16CD, 0xF6B9265B, 0x6FB077E1, 0x18B74777,
    0x88085AE6, 0xFF0F6A70, 0x66063BCA, 0x11010B5C, 0x8F659EFF, 0xF862AE69, 0x616BFFD3, 0x166CCF45,
    0xA00AE278, 0xD70DD2EE, 0x4E048354, 0x3903B3C2, 0xA7672661, 0xD06016F7, 0x4969474D, 0x3E6E77DB,
    0xAED16A4A, 0xD9D65ADC, 0x40DF0B66, 0x37D83BF0, 0xA9BCAE53, 0xDEBB9EC5, 0x47B2CF7F, 0x30B5FFE9,
    0xBDBDF21C, 0xCABAC28A, 0x53B39330, 0x24B4A3A6, 0xBAD03605, 0xCDD70693, 0x54DE5729, 0x23D967BF,
    0xB3667A2E, 0xC4614AB8, 0x5D681B02, 0x2A6F2B94, 0xB40BBE37, 0xC30C8EA1, 0x5A05DF1B, 0x2D02EF8D ]

/-- TABLE as R100 lists it. -/
def listedTable : List Nat := tableRows0 ++ tableRows1 ++ tableRows2 ++ tableRows3

/-- One step of R100's procedure. -/
def tableShift (c : Nat) : Nat := if c % 2 = 1 then 0xEDB88320 ^^^ c / 2 else c / 2

/-- R102's fold, on numbers, from the listed table. -/
def listedFold (acc : Nat) (bytes : List Nat) : Nat :=
  bytes.foldl (fun acc b => listedTable.getD ((acc ^^^ b) % 256) 0 ^^^ acc / 256) acc

/-- The bytes DMEM[a], ..., DMEM[a+n-1]. -/
def memList (s : State) (a n : Nat) : List Nat := (List.range n).map fun i => mem s (a + i)

/-- The 4-byte big-endian value at an address (00_scope.md R9). -/
def be32At (s : State) (a : Nat) : Nat :=
  2 ^ 24 * mem s a + 2 ^ 16 * mem s (a + 1) + 2 ^ 8 * mem s (a + 2) + mem s (a + 3)

/-! ### Filters (41_filter.md) -/

/-- paeth(a, b, c) (R123), in exact integers (R122). -/
def paethOf (a b c : Nat) : Nat :=
  if ((a + b - c : Int) - a).natAbs ≤ ((a + b - c : Int) - b).natAbs ∧
      ((a + b - c : Int) - a).natAbs ≤ ((a + b - c : Int) - c).natAbs then a
  else if ((a + b - c : Int) - b).natAbs ≤ ((a + b - c : Int) - c).natAbs then b
  else c

/-- pred(t, a, b, c) (R123), by filter type number. -/
def pred (t a b c : Nat) : Nat :=
  match t with
  | 0 => 0
  | 1 => a
  | 2 => b
  | 3 => (a + b) / 2
  | _ => paethOf a b c

/-- The predictor at byte `x` of a row whose raw bytes are `raw`, over PREV of `s` (R121). -/
def predAt (s : State) (bpp t : Nat) (raw : Nat → Nat) (x : Nat) : Nat :=
  pred t (if bpp ≤ x then raw (x - bpp) else 0) (prevAt s x) (if bpp ≤ x then prevAt s (x - bpp) else 0)

/-- The byte `x` that filtering the raw row at SRC with filter type `t` gives (R126). -/
def filtered (s : State) (bpp t x : Nat) : Int :=
  ((mem s (reg s 0 + x) : Int) - predAt s bpp t (fun y => mem s (reg s 0 + y)) x) % 256

/-- score of the row at SRC filtered with `t`, of `n` bytes (R128). -/
def scoreOf (s : State) (bpp n t : Nat) : Nat :=
  ((List.range (n - 1)).map fun i => (filtered s bpp t (i + 1) - filtered s bpp t i).natAbs).sum

/-! ### What a command checks (60_exceptions.md R202, R203) -/

/-- A failed check: the code and the info it raises. -/
abbrev Check := Option (Nat × Nat)

/-- A check fails when a condition holds. -/
def failsIf (c : Prop) [Decidable c] (code info : Nat) : Check := if c then some (code, info) else none

/-- Bytes per pixel by color model, 0 for a value that is none. -/
def bppOf (s : State) : Nat := ((bppTable.find? fun e => e.1 = reg s 4 / 256).map Prod.snd).getD 0

/-- ROWB. -/
def rowLen (s : State) : Nat := reg s 3 * bppOf s

/-- Step 2 of R203. -/
def depthCheck (s : State) : Check := failsIf (reg s 4 % 256 ≠ 8) 0x03 (reg s 4 % 256)

/-- Step 3. -/
def modelCheck (s : State) : Check := failsIf (reg s 4 / 256 ∉ [0, 2, 3, 4, 6]) 0x07 (reg s 4 / 256)

/-- Step 4. -/
def rowCheck (s : State) : Check := failsIf (s.params.maxRowBytes < rowLen s) 0x22 (rowLen s % 2 ^ 32)

/-- Step 6. -/
def rangeCheck (s : State) (a n : Nat) : Check := failsIf (s.params.dmemSize < a + n) 0x21 a

/-- The checks of a command, in R203's order, each with its code and info of R202. -/
def checksOf (i : Instr) (s : State) : List Check :=
  match i with
  | .nop => []
  | .clrerr => []
  | .setlo rd _ => [failsIf (5 ≤ rd.toNat) 0x20 (encode i).toNat]
  | .sethi rd _ => [failsIf (5 ≤ rd.toNat) 0x20 (encode i).toNat]
  | .crcInit => []
  | .crcUpd => [rangeCheck s (reg s 0) (reg s 2)]
  | .crcUpdb _ => []
  | .crcCheck =>
    [rangeCheck s (reg s 0) 4, failsIf (be32At s (reg s 0) ≠ reg s 6) 0x02 (be32At s (reg s 0))]
  | .crcStore => [rangeCheck s (reg s 1) 4]
  | .fltStart => []
  | .fltDefilt =>
    [depthCheck s, modelCheck s, rowCheck s, rangeCheck s (reg s 0) (1 + rowLen s), rangeCheck s (reg s 1) (rowLen s),
      failsIf (4 < mem s (reg s 0)) 0x06 (mem s (reg s 0))]
  | .fltFilt ft =>
    [failsIf (5 ≤ ft.toNat) 0x20 (encode i).toNat, depthCheck s, modelCheck s, rowCheck s,
      rangeCheck s (reg s 0) (rowLen s), rangeCheck s (reg s 1) (1 + rowLen s)]
  | .fltSel =>
    [depthCheck s, modelCheck s, rowCheck s, rangeCheck s (reg s 0) (rowLen s), rangeCheck s (reg s 1) (1 + rowLen s)]
  | .fltChklen => [depthCheck s, modelCheck s, failsIf (reg s 2 % (1 + rowLen s) ≠ 0) 0x05 (reg s 2)]
  | .palLoad => [failsIf (reg s 2 % 3 ≠ 0) 0x04 (reg s 2), rangeCheck s (reg s 0) (reg s 2)]
  | .palTrns => [rangeCheck s (reg s 0) (reg s 2)]
  | .pxcUnpack =>
    [depthCheck s, modelCheck s, rangeCheck s (reg s 0) (rowLen s), rangeCheck s (reg s 1) (4 * reg s 3),
      if reg s 4 / 256 = 3 then
        (((List.range (reg s 3)).map fun x => mem s (reg s 0 + x)).find? fun idx => decide (reg s 9 ≤ idx)).map
          fun idx => (0x10, idx)
      else none]
  | .pxcPack => [rangeCheck s (reg s 0) (4 * reg s 3), rangeCheck s (reg s 1) (4 * reg s 3)]

/-- The first check that fails. -/
def firstFailing (i : Instr) (s : State) : Check := (checksOf i s).findSome? id

/-! ### DMEM ranges (20_memory.md R51) -/

/-- The range a command reads: start and length. -/
def readRange (i : Instr) (s : State) : Nat × Nat :=
  match i with
  | .crcUpd => (reg s 0, reg s 2)
  | .crcCheck => (reg s 0, 4)
  | .fltDefilt => (reg s 0, 1 + rowLen s)
  | .fltFilt _ => (reg s 0, rowLen s)
  | .fltSel => (reg s 0, rowLen s)
  | .palLoad => (reg s 0, reg s 2)
  | .palTrns => (reg s 0, reg s 2)
  | .pxcUnpack => (reg s 0, rowLen s)
  | .pxcPack => (reg s 0, 4 * reg s 3)
  | _ => (0, 0)

/-- The range a command writes: start and length. -/
def writeRange (i : Instr) (s : State) : Nat × Nat :=
  match i with
  | .crcStore => (reg s 1, 4)
  | .fltDefilt => (reg s 1, rowLen s)
  | .fltFilt _ => (reg s 1, 1 + rowLen s)
  | .fltSel => (reg s 1, 1 + rowLen s)
  | .pxcUnpack => (reg s 1, 4 * reg s 3)
  | .pxcPack => (reg s 1, 4 * reg s 3)
  | _ => (0, 0)

/-- An address lies in a range. -/
def InRange (r : Nat × Nat) (a : Nat) : Prop := r.1 ≤ a ∧ a < r.1 + r.2

/-! ### Pixels (42_pixel.md R151, R155) -/

/-- Channel `ch` (0 R, 1 G, 2 B, 3 A) of pixel `x` that PXC.UNPACK makes of the raw row at SRC for color model `cm`. -/
def channelOf (s : State) (cm x ch : Nat) : Nat :=
  match cm, ch with
  | 0, 3 => 255
  | 0, _ => mem s (reg s 0 + x)
  | 4, 3 => mem s (reg s 0 + 2 * x + 1)
  | 4, _ => mem s (reg s 0 + 2 * x)
  | 3, 0 => (palEntry s (mem s (reg s 0 + x))).r.toNat
  | 3, 1 => (palEntry s (mem s (reg s 0 + x))).g.toNat
  | 3, 2 => (palEntry s (mem s (reg s 0 + x))).b.toNat
  | 3, _ => (palEntry s (mem s (reg s 0 + x))).a.toNat
  | 2, 3 => 255
  | 2, _ => mem s (reg s 0 + 3 * x + ch)
  | _, _ => mem s (reg s 0 + 4 * x + ch)

end Sys2Proof.Claims

open Sys2Proof Sys2Proof.Machine Sys2Proof.Claims

/-! ## Encoding -/

/-- 30_encoding.md R71 to R75 and 95_test_vectors.md: the words the spec writes out, one or more per family. -/
def Obligations.DecodesSpecWords : Prop :=
  decode 0x00000000#32 = .ok .nop ∧ decode 0x01000000#32 = .ok .clrerr ∧
    decode 0x020000AB#32 = .ok (.setlo 0#4 0x00AB#16) ∧ decode 0x03020001#32 = .ok (.sethi 2#4 0x0001#16) ∧
    decode 0x10000000#32 = .ok .crcInit ∧ decode 0x12000061#32 = .ok (.crcUpdb 0x61#8) ∧
    decode 0x14000000#32 = .ok .crcStore ∧ decode 0x21000000#32 = .ok .fltDefilt ∧
    decode 0x22000003#32 = .ok (.fltFilt 3#3) ∧ decode 0x31000000#32 = .ok .palTrns ∧
    decode 0x33000000#32 = .ok .pxcPack

/-- 30_encoding.md R70 to R77: every well-formed command, with every operand the encoding admits, is the decoding of
its word. -/
def Obligations.DecodeOfEncode : Prop := ∀ i : Instr, i.wellFormed = true → decode (encode i) = .ok i

/-- 30_encoding.md R70 to R77: a word that decodes has one meaning and loses no bit. -/
def Obligations.EncodeOfDecode : Prop :=
  ∀ (w : Word) (i : Instr), decode w = .ok i → i.wellFormed = true ∧ encode i = w

/-- 30_encoding.md R76: exactly the words of its pseudocode are legal, and an illegal one at CMDQ's head, outside the
error state, has no effect but the error latch: IllegalCommand with info the word. -/
def Obligations.IllegalWordsRaise : Prop :=
  ∀ w : Word, ((∃ i, decode w = .ok i) ↔ LegalWord w.toNat) ∧
    ∀ (s : State) (rest : List Word), s.cmdq = w :: rest → s.err = false → ¬ LegalWord w.toNat →
      step s = .next { s with cmdq := rest, err := true, errCode := 0x20#8, errCmd := w, errInfo := w }

/-! ## The sequencer's step and the error latch -/

/-- 60_exceptions.md R200: outside the error state (and for CLRERR's word inside it) a step runs the command its head
word decodes to, on the state with that word removed. -/
def Obligations.StepRunsDecodedCommand : Prop :=
  ∀ (s : State) (w : Word) (rest : List Word) (i : Instr),
    s.cmdq = w :: rest → decode w = .ok i → s.err = false ∨ w = 0x01000000#32 →
      step s = exec i { s with cmdq := rest }

/-- 60_exceptions.md R206, R208: in the error state a step removes the head word; only exactly 0x01000000 is executed,
and it ends the error state; every other word, illegal words too, has no effect at all. -/
def Obligations.ErrorStateStep : Prop :=
  ∀ (s : State) (w : Word) (rest : List Word), s.cmdq = w :: rest → s.err = true →
    (w = 0x01000000#32 → step s = .next { s with cmdq := rest, err := false, errCode := 0x00#8 }) ∧
      (w ≠ 0x01000000#32 → step s = .next { s with cmdq := rest })

/-- 60_exceptions.md R226, 20_memory.md R60: while CMDQ is non-empty the step has a next state, whose queue is the tail;
and the parameters never change. -/
def Obligations.StepAlwaysCompletes : Prop :=
  ∀ (s : State) (w : Word) (rest : List Word), s.cmdq = w :: rest →
    ∃ t, step s = .next t ∧ t.cmdq = rest ∧ t.params = s.params ∧ t.drawEpoch = s.drawEpoch

/-- 60_exceptions.md R225: "Idling loses no state". That an idle step is an outcome of `step` is the model's choice
(log 5, DESIGN CHOICE). -/
def Obligations.EmptyQueueIdles : Prop := ∀ s : State, s.cmdq = [] → step s = .next s

/-- 60_exceptions.md R201, R205: a step that enters the error state writes ERR, ERRCODE, ERRCMD (the word) and ERRINFO,
and no other piece of state but the queue it took the word from; the code is one the block writes (R202). -/
def Obligations.ErrorsArePrecise : Prop :=
  ∀ (s t : State) (w : Word) (rest : List Word),
    s.cmdq = w :: rest → s.err = false → step s = .next t → t.err = true →
      ∃ code ∈ writtenCodes, ∃ info : Word, t = errored w code info { s with cmdq := rest }

/-- 60_exceptions.md R202, R203: a command raises the first check of R203's order that fails, with R202's code and info
and no other effect; with no check failing it raises nothing. A word that is no command raises IllegalCommand, the first
of that order, and nothing else. -/
def Obligations.FirstFailingCheckRaises : Prop :=
  ∀ (i : Instr) (s : State),
    (∀ code info, firstFailing i s = some (code, info) →
      exec i s = .next (errored (encode i) (BitVec.ofNat 8 code) (BitVec.ofNat 32 info) s)) ∧
      (firstFailing i s = none → i ≠ .clrerr →
        ∃ t, exec i s = .next t ∧ t.err = s.err ∧ t.errCode = s.errCode ∧ t.errCmd = s.errCmd ∧
          t.errInfo = s.errInfo) ∧
      ∀ (w : Word) (rest : List Word), s.cmdq = w :: rest → s.err = false → (∀ j, decode w ≠ .ok j) →
        step s = .next (errored w 0x20#8 w { s with cmdq := rest })

/-! ## Reset and the invariant -/

/-- 10_state.md R42: every register of the file, the queue and PREV after reset. DMEM is a draw per byte (20_memory.md
R57): it reads as the constant with no body. -/
def Obligations.ResetValues : Prop :=
  (∀ i : Nat, i < 16 → i ≠ 5 → reg State.reset i = 0) ∧ reg State.reset 5 = 0xFFFFFFFF ∧ State.reset.cmdq = [] ∧
    (∀ x, prevByte State.reset x = 0#8) ∧ ∀ a, dmemByte State.reset a = Config.dmemDraw State.reset.drawEpoch a

/-- 70_reset_and_hazards.md R230: the host's reset, from any state, empties CMDQ, clears STATUS, and leaves the values
of R42; DMEM reads as fresh draws. That the draws carry a new number is the model's own (log 13, DESIGN CHOICE). -/
def Obligations.HostResetRestoresResetValues : Prop :=
  ∀ s : State, ∃ t, hostStep .reset s = .next (t, .done) ∧ t.cmdq = [] ∧ t.params = s.params ∧
    (∀ i : Nat, i < 16 → i ≠ 5 → reg t i = 0) ∧ reg t 5 = 0xFFFFFFFF ∧ (∀ x, prevByte t x = 0#8) ∧
    ∀ a, dmemByte t a = Config.dmemDraw (s.drawEpoch + 1) a

/-- The invariant holds after every reset of a block with legal parameters, `State.reset` among them. -/
def Obligations.InvariantAtReset : Prop :=
  (∀ (p : Params) (epoch : Nat), p.Legal → (State.resetOf p epoch).Inv) ∧ State.reset.Inv

/-- Every step keeps the invariant (Safety.lean): canonical storages, PAL_COUNT at most 256 and loaded, ERR and ERRCODE
agreeing, codes 0x01, 0x08 and 0x09 never written, the queue within its depth. -/
def Obligations.StepKeepsInvariant : Prop := ∀ s t : State, s.Inv → step s = .next t → t.Inv

/-- Every host action keeps the invariant. -/
def Obligations.HostKeepsInvariant : Prop :=
  ∀ (act : HostAction) (s t : State) (reply : HostReply), s.Inv → hostStep act s = .next (t, reply) → t.Inv

/-- 20_memory.md R61: every state of every interleaving, from a reset, meets the invariant, and the parameters are the
block's. -/
def Obligations.ReachableStatesMeetInvariant : Prop :=
  ∀ (p : Params) (s : State), p.Legal → Reachable p s → s.Inv ∧ s.params = p

/-! ## Sequencer commands (43_sequencer.md) -/

/-- R180: NOP leaves every register, DMEM, PREV and PAL unchanged. -/
def Obligations.NopChangesNothing : Prop := ∀ s : State, exec .nop s = .next s

/-- R181, 60_exceptions.md R207: CLRERR clears ERR and ERRCODE and nothing else. -/
def Obligations.ClrerrEndsErrorState : Prop :=
  ∀ s : State, exec .clrerr s = .next { s with err := false, errCode := 0x00#8 }

/-- R182: SETLO writes bits [15:0] of x[RD] and keeps [31:16]; IMGCFG[31:16] read 0. No other register, and no other
state, changes. -/
def Obligations.SetloWritesLowHalf : Prop :=
  ∀ (s : State) (rd : BitVec 4) (imm16 : BitVec 16), rd.toNat ≤ 4 →
    ∃ t, exec (.setlo rd imm16) s = .next t ∧
      reg t rd.toNat = (if rd.toNat = 4 then imm16.toNat else reg s rd.toNat / 2 ^ 16 * 2 ^ 16 + imm16.toNat) ∧
      (∀ i : BitVec 4, i ≠ rd → readReg t i = readReg s i) ∧
      t = { s with src := t.src, dst := t.dst, len := t.len, width := t.width, imgcfg := t.imgcfg }

/-- R183: SETHI writes bits [31:16] of x[RD] and keeps [15:0]; on IMGCFG it has no effect. No other register, and no
other state, changes. -/
def Obligations.SethiWritesHighHalf : Prop :=
  ∀ (s : State) (rd : BitVec 4) (imm16 : BitVec 16), rd.toNat ≤ 4 →
    ∃ t, exec (.sethi rd imm16) s = .next t ∧
      reg t rd.toNat = (if rd.toNat = 4 then reg s 4 else imm16.toNat * 2 ^ 16 + reg s rd.toNat % 2 ^ 16) ∧
      (∀ i : BitVec 4, i ≠ rd → readReg t i = readReg s i) ∧
      t = { s with src := t.src, dst := t.dst, len := t.len, width := t.width, imgcfg := t.imgcfg }

/-- 30_encoding.md R82: the two words of `li` leave the register holding imm32 "whatever it held before" (for IMGCFG,
its low 16 bits). -/
def Obligations.LiLoadsWholeRegister : Prop :=
  ∀ (s : State) (rd : BitVec 4) (imm32 : Word), rd.toNat ≤ 4 →
    ∃ i j t u, (Pseudo.li rd imm32).expand = [i, j] ∧ exec i s = .next t ∧ exec j t = .next u ∧
      reg u rd.toNat = (if rd.toNat = 4 then imm32.toNat % 2 ^ 16 else imm32.toNat) ∧
      ∀ k : BitVec 4, k ≠ rd → readReg u k = readReg s k

/-- 30_encoding.md R81: the assembler refuses what has no encoding, so every command it emits is well formed and
decodes to itself. -/
def Obligations.AssembledCommandsDecode : Prop :=
  ∀ (line : List Char) (is : List Instr), assembleLine line = some is →
    ∀ i ∈ is, i.wellFormed = true ∧ decode (encode i) = .ok i

/-! ## CRC unit (40_crc.md) -/

/-- R100: TABLE's 256 entries are those listed, and each is what the procedure gives. -/
def Obligations.TableHoldsListedContents : Prop :=
  listedTable.length = 256 ∧
    ∀ n : Byte, (crcTable n).toNat = listedTable.getD n.toNat 0 ∧ (crcTable n).toNat = tableShift^[8] n.toNat

/-- R101: CRC.INIT sets CRC_ACC to 0xFFFFFFFF and nothing else; CRC_VAL then reads 0. -/
def Obligations.CrcInitStartsComputation : Prop :=
  ∀ s : State, exec .crcInit s = .next { s with crcAcc := 0xFFFFFFFF#32 } ∧
    reg { s with crcAcc := 0xFFFFFFFF#32 } 6 = 0

/-- 10_state.md R28: every read of CRC_VAL returns CRC_ACC xor 0xFFFFFFFF. -/
def Obligations.CrcValIsFinishedValue : Prop := ∀ s : State, reg s 6 = reg s 5 ^^^ 0xFFFFFFFF

/-- R102: with [SRC, SRC+LEN) in DMEM, CRC.UPD folds its bytes by the listed table; only CRC_ACC changes. -/
def Obligations.CrcUpdFoldsBytes : Prop :=
  ∀ s : State, reg s 0 + reg s 2 ≤ s.params.dmemSize →
    ∃ acc : Word, exec .crcUpd s = .next { s with crcAcc := acc } ∧
      acc.toNat = listedFold (reg s 5) (memList s (reg s 0) (reg s 2))

/-- R103: CRC.UPDB folds its immediate byte; only CRC_ACC changes. -/
def Obligations.CrcUpdbFoldsImmediate : Prop :=
  ∀ (s : State) (b : Byte), ∃ acc : Word,
    exec (.crcUpdb b) s = .next { s with crcAcc := acc } ∧ acc.toNat = listedFold (reg s 5) [b.toNat]

/-- R102, R106: folding m bytes and then the n after them is folding the m + n bytes at once. -/
def Obligations.CrcUpdSplitsAnywhere : Prop :=
  ∀ (s : State) (m n : Nat), reg s 0 + (m + n) < 2 ^ 32 → reg s 0 + (m + n) ≤ s.params.dmemSize →
    ∃ t u v, exec .crcUpd { s with len := BitVec.ofNat 32 m } = .next t ∧
      exec .crcUpd { t with src := BitVec.ofNat 32 (reg s 0 + m), len := BitVec.ofNat 32 n } = .next u ∧
      exec .crcUpd { s with len := BitVec.ofNat 32 (m + n) } = .next v ∧ reg u 5 = reg v 5 ∧ reg u 6 = reg v 6

/-- R103: "CRC.UPDB b has the same effect as CRC.UPD over one DMEM byte holding b". -/
def Obligations.CrcUpdbEqualsOneByteUpd : Prop :=
  ∀ (s : State) (b : Byte), reg s 2 = 1 → reg s 0 + 1 ≤ s.params.dmemSize → dmemByte s (reg s 0) = b →
    exec .crcUpd s = exec (.crcUpdb b) s

/-- R104: CRC.CHECK compares the big-endian value at SRC with CRC_VAL, all 32 bits; it changes nothing when they agree
and raises CrcMismatch with the stored value when they differ. -/
def Obligations.CrcCheckComparesFinishedValue : Prop :=
  ∀ s : State, reg s 0 + 4 ≤ s.params.dmemSize →
    (be32At s (reg s 0) = reg s 6 → exec .crcCheck s = .next s) ∧
      (be32At s (reg s 0) ≠ reg s 6 →
        exec .crcCheck s = .next (errored 0x13000000#32 0x02#8 (BitVec.ofNat 32 (be32At s (reg s 0))) s))

/-- R105: CRC.STORE writes CRC_VAL big-endian to DMEM[DST..DST+3]; no other byte and no other state changes. -/
def Obligations.CrcStoreWritesBigEndian : Prop :=
  ∀ s : State, reg s 1 + 4 ≤ s.params.dmemSize →
    ∃ t, exec .crcStore s = .next t ∧ t = { s with dmem := t.dmem } ∧ be32At t (reg s 1) = reg s 6 ∧
      SameDmemOutside (reg s 1) 4 s t

/-- R105: "CRC.STORE then CRC.CHECK at SRC = DST never raises CrcMismatch". -/
def Obligations.CrcStoreThenCheckPasses : Prop :=
  ∀ s : State, reg s 1 + 4 ≤ s.params.dmemSize →
    ∃ t, exec .crcStore s = .next t ∧ exec .crcCheck { t with src := s.dst } = .next { t with src := s.dst }

/-- R107: changing one byte of what CRC.UPD folds, in any of its bits, changes CRC_VAL. -/
def Obligations.CrcDetectsOneChangedByte : Prop :=
  ∀ (s t : State) (x : Nat), reg s 0 + reg s 2 ≤ s.params.dmemSize → t = { s with dmem := t.dmem } → x < reg s 2 →
    dmemByte t (reg s 0 + x) ≠ dmemByte s (reg s 0 + x) →
    (∀ y, y < reg s 2 → y ≠ x → dmemByte t (reg s 0 + y) = dmemByte s (reg s 0 + y)) →
      ∃ u v, exec .crcUpd s = .next u ∧ exec .crcUpd t = .next v ∧ reg u 6 ≠ reg v 6

/-! ## Filter unit (41_filter.md) -/

/-- R123: the five predictors. Paeth answers one of its neighbours, at the least distance from a + b - c in exact
integers, "ties broken left > above > upper-left"; the sum of Average is not wrapped. -/
def Obligations.PredictorRule : Prop :=
  ∀ a b c : Byte,
    let p : Int := a.toNat + b.toNat - c.toNat
    let d := fun v : Byte => (p - v.toNat).natAbs
    predictor .none a b c = 0 ∧ predictor .sub a b c = a.toNat ∧ predictor .up a b c = b.toNat ∧
      predictor .average a b c = (a.toNat + b.toNat) / 2 ∧ predictor .paeth a b c = (paeth a b c).toNat ∧
      (paeth a b c = a ∨ paeth a b c = b ∨ paeth a b c = c) ∧
      (∀ v ∈ [a, b, c], d (paeth a b c) ≤ d v) ∧
      (d a ≤ d b ∧ d a ≤ d c → paeth a b c = a) ∧ (¬(d a ≤ d b ∧ d a ≤ d c) → d b ≤ d c → paeth a b c = b) ∧
      (¬(d a ≤ d b ∧ d a ≤ d c) → ¬d b ≤ d c → paeth a b c = c)

/-- R124: FLT.START zeroes every PREV byte and ROW_COUNT; no other state changes, LASTF among it. -/
def Obligations.FltStartClearsPrev : Prop :=
  ∀ s : State, ∃ t, exec .fltStart s = .next t ∧ t = { s with prev := t.prev, rowCount := 0#32 } ∧
    ∀ x, prevByte t x = 0#8

/-- R125, R121: each reconstructed byte is the filtered byte plus the predictor mod 256, where the left neighbour is the
byte already reconstructed; PREV receives the row, ROW_COUNT counts it mod 2^32, LASTF is the tag. Bytes of PREV at and
above ROWB, and every other byte and register, are unchanged. -/
def Obligations.FltDefiltReconstructsRow : Prop :=
  ∀ (s : State) (cm bpp n : Nat) (t : FilterType), Configured s cm bpp → n = reg s 3 * bpp →
    n ≤ s.params.maxRowBytes → reg s 0 + (1 + n) ≤ s.params.dmemSize → reg s 1 + n ≤ s.params.dmemSize →
    mem s (reg s 0) = t.number →
      ∃ u, exec .fltDefilt s = .next u ∧
        u = { s with dmem := u.dmem, prev := u.prev, rowCount := s.rowCount + 1#32, lastf := t } ∧
        (∀ x < n, mem u (reg s 1 + x) =
          (mem s (reg s 0 + 1 + x) + predAt s bpp t.number (fun y => mem u (reg s 1 + y)) x) % 256) ∧
        (∀ x < n, prevByte u x = dmemByte u (reg s 1 + x)) ∧ (∀ x, n ≤ x → prevByte u x = prevByte s x) ∧
        SameDmemOutside (reg s 1) n s u

/-- R126: the tag, then each raw byte minus the predictor mod 256, where the left neighbour is the raw byte; PREV
receives the raw row. For every FT from 0 to 4. -/
def Obligations.FltFiltFiltersRow : Prop :=
  ∀ (s : State) (cm bpp n : Nat) (ft : BitVec 3) (t : FilterType), Configured s cm bpp → n = reg s 3 * bpp →
    n ≤ s.params.maxRowBytes → reg s 0 + n ≤ s.params.dmemSize → reg s 1 + (1 + n) ≤ s.params.dmemSize →
    ft.toNat = t.number →
      ∃ u, exec (.fltFilt ft) s = .next u ∧
        u = { s with dmem := u.dmem, prev := u.prev, rowCount := s.rowCount + 1#32, lastf := t } ∧
        mem u (reg s 1) = t.number ∧
        (∀ x < n, (mem u (reg s 1 + 1 + x) : Int) = filtered s bpp t.number x) ∧
        (∀ x < n, prevByte u x = dmemByte s (reg s 0 + x)) ∧ (∀ x, n ≤ x → prevByte u x = prevByte s x) ∧
        SameDmemOutside (reg s 1) (1 + n) s u

/-- R127, R128: FLT.SEL writes the row filtered with the first of Sub, Up, Average, Paeth whose score is the least (None
is never chosen), and each score that fits 32 bits to its register. What a SCORE register holds for a larger score is a
free value (log 4), of which nothing is stated. -/
def Obligations.FltSelPicksFirstMinimum : Prop :=
  ∀ (s : State) (cm bpp n : Nat), Configured s cm bpp → n = reg s 3 * bpp →
    n ≤ s.params.maxRowBytes → reg s 0 + n ≤ s.params.dmemSize → reg s 1 + (1 + n) ≤ s.params.dmemSize →
      ∃ (u : State) (best : FilterType), exec .fltSel s = .next u ∧
        u = { s with
              dmem := u.dmem, prev := u.prev, rowCount := s.rowCount + 1#32, lastf := best, scoreSub := u.scoreSub,
              scoreUp := u.scoreUp, scoreAvg := u.scoreAvg, scorePaeth := u.scorePaeth } ∧
        best ≠ .none ∧ (∀ t ∈ [1, 2, 3, 4], scoreOf s bpp n best.number ≤ scoreOf s bpp n t) ∧
        (∀ t ∈ [1, 2, 3, 4], t < best.number → scoreOf s bpp n best.number < scoreOf s bpp n t) ∧
        (∀ t ∈ [1, 2, 3, 4], scoreOf s bpp n t < 2 ^ 32 → reg u (10 + t) = scoreOf s bpp n t) ∧
        mem u (reg s 1) = best.number ∧
        (∀ x < n, (mem u (reg s 1 + 1 + x) : Int) = filtered s bpp best.number x) ∧
        (∀ x < n, prevByte u x = dmemByte s (reg s 0 + x)) ∧ (∀ x, n ≤ x → prevByte u x = prevByte s x) ∧
        SameDmemOutside (reg s 1) (1 + n) s u

/-- R129: FLT.CHKLEN passes, with no effect, exactly on whole numbers of scanlines, and has no RowTooLong test. -/
def Obligations.FltChklenPassesWholeRows : Prop :=
  ∀ (s : State) (cm bpp : Nat), Configured s cm bpp →
    (reg s 2 % (1 + reg s 3 * bpp) = 0 → exec .fltChklen s = .next s) ∧
      (reg s 2 % (1 + reg s 3 * bpp) ≠ 0 → exec .fltChklen s = .next (errored 0x24000000#32 0x05#8 s.len s))

/-- R131: FLT.FILT t, then FLT.DEFILT of its output from the same PREV, gives the raw row back, and PREV ends equal in
both runs. -/
def Obligations.FilterInverseLaw : Prop :=
  ∀ (s : State) (cm bpp n : Nat) (ft : BitVec 3) (d : Word), Configured s cm bpp → n = reg s 3 * bpp →
    n ≤ s.params.maxRowBytes → reg s 0 + n ≤ s.params.dmemSize → reg s 1 + (1 + n) ≤ s.params.dmemSize →
    ft.toNat ≤ 4 → d.toNat + n ≤ s.params.dmemSize →
      ∃ u v, exec (.fltFilt ft) s = .next u ∧
        exec .fltDefilt { u with prev := s.prev, src := s.dst, dst := d } = .next v ∧
        (∀ x < n, dmemByte v (d.toNat + x) = dmemByte s (reg s 0 + x)) ∧ ∀ x, prevByte v x = prevByte u x

/-- R133: FLT.SEL's output, tag and scores are a function of the raw row, PREV[0..n-1], bpp and n alone. -/
def Obligations.SelectionIsPure : Prop :=
  ∀ (s s' : State) (cm cm' bpp n : Nat), Configured s cm bpp → Configured s' cm' bpp →
    n = reg s 3 * bpp → n = reg s' 3 * bpp →
    n ≤ s.params.maxRowBytes → reg s 0 + n ≤ s.params.dmemSize → reg s 1 + (1 + n) ≤ s.params.dmemSize →
    n ≤ s'.params.maxRowBytes → reg s' 0 + n ≤ s'.params.dmemSize → reg s' 1 + (1 + n) ≤ s'.params.dmemSize →
    (∀ x < n, dmemByte s' (reg s' 0 + x) = dmemByte s (reg s 0 + x)) → (∀ x < n, prevByte s' x = prevByte s x) →
      ∃ u u', exec .fltSel s = .next u ∧ exec .fltSel s' = .next u' ∧ u'.lastf = u.lastf ∧
        (∀ k ∈ [11, 12, 13, 14], reg u' k = reg u k) ∧
        ∀ x < 1 + n, dmemByte u' (reg s' 1 + x) = dmemByte u (reg s 1 + x)

/-- R125, R127: over an all-zero PREV (row 0 after FLT.START), Paeth gives the same bytes as Sub, so FLT.SEL never
chooses Paeth there. -/
def Obligations.RowZeroPaethEqualsSub : Prop :=
  ∀ (s : State) (cm bpp n : Nat), Configured s cm bpp → n = reg s 3 * bpp →
    n ≤ s.params.maxRowBytes → reg s 0 + n ≤ s.params.dmemSize → reg s 1 + (1 + n) ≤ s.params.dmemSize →
    (∀ x < n, prevByte s x = 0#8) →
      ∃ u v w, exec (.fltFilt 1#3) s = .next u ∧ exec (.fltFilt 4#3) s = .next v ∧ exec .fltSel s = .next w ∧
        (∀ x < n, dmemByte v (reg s 1 + 1 + x) = dmemByte u (reg s 1 + 1 + x)) ∧ w.lastf ≠ .paeth

/-! ## Pixel unit (42_pixel.md) -/

/-- R150: BPP(IMGCFG), the bit depth checked before the color model. -/
def Obligations.BytesPerPixelTable : Prop :=
  ∀ cfg : BitVec 16,
    (cfg.toNat % 256 ≠ 8 →
      bytesPerPixel cfg = .error ⟨.unsupportedBitDepth, BitVec.ofNat 32 (cfg.toNat % 256)⟩) ∧
      (cfg.toNat % 256 = 8 → ∀ e ∈ bppTable, cfg.toNat / 256 = e.1 → bytesPerPixel cfg = .ok e.2) ∧
      (cfg.toNat % 256 = 8 → cfg.toNat / 256 ∉ [0, 2, 3, 4, 6] →
        bytesPerPixel cfg = .error ⟨.unsupportedColorModel, BitVec.ofNat 32 (cfg.toNat / 256)⟩)

/-- R152: PAL.LOAD replaces entries 0 to k-1, k the lesser of LEN/3 and 256, with the payload's triples at alpha 255;
PAL_COUNT is k and PALV 1. Entries at and above k, and all else, are unchanged. -/
def Obligations.PalLoadBuildsPalette : Prop :=
  ∀ (s : State) (k : Nat), reg s 2 % 3 = 0 → reg s 0 + reg s 2 ≤ s.params.dmemSize → k = min (reg s 2 / 3) 256 →
    ∃ t, exec .palLoad s = .next t ∧ t = { s with pal := t.pal, palCount := BitVec.ofNat 32 k, palv := true } ∧
      (∀ i < k, palEntry t i =
        ⟨dmemByte s (reg s 0 + 3 * i), dmemByte s (reg s 0 + 3 * i + 1), dmemByte s (reg s 0 + 3 * i + 2), 255#8⟩) ∧
      ∀ i, k ≤ i → palEntry t i = palEntry s i

/-- R153: PAL.TRNS sets the alphas of entries 0 to min(LEN, PAL_COUNT)-1 and nothing else; with PALV = 0 it has no
effect at all. -/
def Obligations.PalTrnsSetsAlphas : Prop :=
  ∀ s : State, reg s 0 + reg s 2 ≤ s.params.dmemSize →
    (s.palv = false → exec .palTrns s = .next s) ∧
      (s.palv = true → ∃ t, exec .palTrns s = .next t ∧ t = { s with pal := t.pal } ∧
        (∀ i < min (reg s 2) (reg s 9), palEntry t i = { palEntry s i with a := dmemByte s (reg s 0 + i) }) ∧
        ∀ i, min (reg s 2) (reg s 9) ≤ i → palEntry t i = palEntry s i)

/-- R155, R151: PXC.UNPACK writes the four channels of each pixel by the color model (in Palette mode with every index
below PAL_COUNT); no other byte and no other state changes. -/
def Obligations.PxcUnpackConvertsPixels : Prop :=
  ∀ (s : State) (cm bpp : Nat), Configured s cm bpp → reg s 0 + reg s 3 * bpp ≤ s.params.dmemSize →
    reg s 1 + 4 * reg s 3 ≤ s.params.dmemSize →
    (cm = 3 → ∀ x < reg s 3, mem s (reg s 0 + x) < reg s 9) →
      ∃ t, exec .pxcUnpack s = .next t ∧ t = { s with dmem := t.dmem } ∧
        (∀ x < reg s 3, ∀ ch < 4, mem t (reg s 1 + 4 * x + ch) = channelOf s cm x ch) ∧
        SameDmemOutside (reg s 1) (4 * reg s 3) s t

/-- R156: PXC.PACK copies the 4 x WIDTH bytes as they were when the command began, whatever IMGCFG holds; no other byte
and no other state changes. -/
def Obligations.PxcPackCopiesRow : Prop :=
  ∀ s : State, reg s 0 + 4 * reg s 3 ≤ s.params.dmemSize → reg s 1 + 4 * reg s 3 ≤ s.params.dmemSize →
    ∃ t, exec .pxcPack s = .next t ∧ t = { s with dmem := t.dmem } ∧
      (∀ x < 4 * reg s 3, dmemByte t (reg s 1 + x) = dmemByte s (reg s 0 + x)) ∧
      SameDmemOutside (reg s 1) (4 * reg s 3) s t

/-- R157: PXC.PACK, then FLT.SEL or FLT.FILT with any type, then FLT.DEFILT from the same PREV, then PXC.UNPACK, with
IMGCFG = (8, RgbAlpha), yields the pixels, wherever the buffers lie. -/
def Obligations.PixelRoundTrip : Prop :=
  ∀ (s : State) (encoder : Instr) (raw tagged raw' out : Word) (n : Nat),
    s.imgcfg = 0x0608#16 → n = 4 * reg s 3 → n ≤ s.params.maxRowBytes →
    encoder = .fltSel ∨ (∃ ft : BitVec 3, ft.toNat ≤ 4 ∧ encoder = .fltFilt ft) →
    reg s 0 + n ≤ s.params.dmemSize → raw.toNat + n ≤ s.params.dmemSize →
    tagged.toNat + (1 + n) ≤ s.params.dmemSize → raw'.toNat + n ≤ s.params.dmemSize →
    out.toNat + n ≤ s.params.dmemSize →
      ∃ t u v w, exec .pxcPack { s with dst := raw } = .next t ∧
        exec encoder { t with src := raw, dst := tagged } = .next u ∧
        exec .fltDefilt { u with prev := s.prev, src := tagged, dst := raw' } = .next v ∧
        exec .pxcUnpack { v with src := raw', dst := out } = .next w ∧
        ∀ x < n, dmemByte w (out.toNat + x) = dmemByte s (reg s 0 + x)

/-- R158: after PAL.LOAD of N entries and PAL.TRNS of M at most N bytes, PXC.UNPACK in Palette mode gives the byte's
alpha for index below M and 255 for the others. -/
def Obligations.PaletteTransparencyLaw : Prop :=
  ∀ (s : State) (n m w : Nat) (alphas row out : Word),
    n ≤ 256 → m ≤ n → w < 2 ^ 32 → reg s 0 + 3 * n ≤ s.params.dmemSize → alphas.toNat + m ≤ s.params.dmemSize →
    row.toNat + w ≤ s.params.dmemSize → out.toNat + 4 * w ≤ s.params.dmemSize →
    (∀ x < w, mem s (row.toNat + x) < n) →
      ∃ t u v, exec .palLoad { s with len := BitVec.ofNat 32 (3 * n) } = .next t ∧
        exec .palTrns { t with src := alphas, len := BitVec.ofNat 32 m } = .next u ∧
        exec .pxcUnpack { u with imgcfg := 0x0308#16, width := BitVec.ofNat 32 w, src := row, dst := out } = .next v ∧
        ∀ x < w, mem v (out.toNat + 4 * x + 3) =
          if mem s (row.toNat + x) < m then mem s (alphas.toNat + mem s (row.toNat + x)) else 255

/-- 10_state.md R31: "Entries at and above PAL_COUNT are never read": a change of those entries alone changes no
register, no DMEM byte and no lower entry after any command that runs. -/
def Obligations.UnloadedPaletteEntriesUnobservable : Prop :=
  ∀ (i : Instr) (s t : State) (pal' : Palette), exec i s = .next t →
    (∀ k < reg s 9, palEntry { s with pal := pal' } k = palEntry s k) →
      ∃ t', exec i { s with pal := pal' } = .next t' ∧ t' = { t with pal := t'.pal } ∧
        ∀ k < reg t 9, palEntry t' k = palEntry t k

/-! ## The host's port, and whole-machine rules -/

/-- 20_memory.md R60: a push appends at the tail and makes BUSY 1; on a full queue the host holds, and nothing is lost
or overwritten. -/
def Obligations.HostPushAppends : Prop :=
  ∀ (s : State) (w : Word),
    (s.cmdq.length < s.params.cmdqDepth → ∃ t, hostStep (.push w) s = .next (t, .done) ∧
      t = { s with cmdq := s.cmdq ++ [w] } ∧ 2 ^ 31 ≤ reg t 7) ∧
      (s.params.cmdqDepth ≤ s.cmdq.length → hostStep (.push w) s = .refused .pushHolds)

/-- 70_reset_and_hazards.md R243, R242, 20_memory.md R60: in every weakly fair execution, a full queue has room again
later, so a push that holds is a wait; and once the host pushes no more words, CMDQ empties and stays empty. -/
def Obligations.FairRunsDrainQueue : Prop :=
  ∀ (p : Params) (states : Nat → State) (events : Nat → Event),
    p.Legal → Execution p states events → WeaklyFair states events →
      (∀ n, ∃ m, n ≤ m ∧ (states m).cmdq.length < p.cmdqDepth) ∧
        ∀ n, (∀ m, n ≤ m → ∀ w reply, events m ≠ .host (.push w) reply) →
          ∃ m, n ≤ m ∧ ∀ k, m ≤ k → busy (states k) = false ∧ ((states k).completed = true ↔ (states k).err = false)

/-- 20_memory.md R50, 10_state.md R20: while BUSY = 1 the host has no access to DMEM or to a register other than STATUS,
and it may read STATUS at any time. -/
def Obligations.BusyBlocksHostAccess : Prop :=
  ∀ s : State, hostStep .readStatus s = .next (s, .word (readReg s 7#4)) ∧
    (2 ^ 31 ≤ reg s 7 → ∀ (a : Nat) (b : Byte) (i : BitVec 4), i ≠ 7#4 →
      hostStep (.readDmem a) s = .refused .hostWaitsForIdle ∧
        hostStep (.writeDmem a b) s = .refused .hostWaitsForIdle ∧
        hostStep (.readReg i) s = .refused .hostWaitsForIdle) ∧
    (reg s 7 < 2 ^ 31 → ∀ i : BitVec 4, hostStep (.readReg i) s = .next (s, .word (readReg s i)))

/-- 20_memory.md R50, R56: while BUSY = 0, a host write to a DMEM address is what the host reads there next, and no other
byte and no other state changes. -/
def Obligations.HostDmemReadsLastWrite : Prop :=
  ∀ (s : State) (a : Nat) (b : Byte), s.cmdq = [] → a < s.params.dmemSize →
    ∃ t, hostStep (.writeDmem a b) s = .next (t, .done) ∧ t = { s with dmem := t.dmem } ∧
      hostStep (.readDmem a) t = .next (t, .byte b) ∧ SameDmemOutside a 1 s t

/-- 10_state.md R29: STATUS is ERR + 2 PALV + 4 LASTF + 2^8 ERRCODE + 2^31 BUSY, so the reserved bits read 0. -/
def Obligations.StatusFieldsLayout : Prop :=
  ∀ s : State, reg s 7 = (if s.err then 1 else 0) + (if s.palv then 2 else 0) + 4 * s.lastf.number +
    2 ^ 8 * s.errCode.toNat + (if s.cmdq = [] then 0 else 2 ^ 31)

/-- 10_state.md R21, R29, R31 to R37, 20_memory.md R51: each register, flag and storage changes only by the commands its
rule names; ERR, ERRCODE, ERRCMD and ERRINFO also by error entry (60_exceptions.md R205), which changes nothing else. -/
def Obligations.OnlyNamedCommandsWriteState : Prop :=
  ∀ (i : Instr) (s t : State), exec i s = .next t →
    (∀ r : BitVec 4, r.toNat ≤ 4 → readReg t r ≠ readReg s r → ∃ h, i = .setlo r h ∨ i = .sethi r h) ∧
      (t.crcAcc ≠ s.crcAcc → i = .crcInit ∨ i = .crcUpd ∨ ∃ b, i = .crcUpdb b) ∧
      (t.palCount ≠ s.palCount ∨ t.palv ≠ s.palv → i = .palLoad) ∧
      (t.rowCount ≠ s.rowCount ∨ t.prev ≠ s.prev →
        i = .fltStart ∨ i = .fltDefilt ∨ i = .fltSel ∨ ∃ ft, i = .fltFilt ft) ∧
      (t.lastf ≠ s.lastf → i = .fltDefilt ∨ i = .fltSel ∨ ∃ ft, i = .fltFilt ft) ∧
      (t.scoreSub ≠ s.scoreSub ∨ t.scoreUp ≠ s.scoreUp ∨ t.scoreAvg ≠ s.scoreAvg ∨ t.scorePaeth ≠ s.scorePaeth →
        i = .fltSel) ∧
      (t.err ≠ s.err ∨ t.errCode ≠ s.errCode → i = .clrerr ∨ EntersError i s t) ∧
      (t.errCmd ≠ s.errCmd ∨ t.errInfo ≠ s.errInfo ∨ (s.err = false ∧ t.err = true) → EntersError i s t) ∧
      (s.err = true → t.err = false → i = .clrerr) ∧
      (t.pal ≠ s.pal → i = .palLoad ∨ i = .palTrns) ∧
      (t.dmem ≠ s.dmem → i = .crcStore ∨ i = .fltDefilt ∨ i = .fltSel ∨ (∃ ft, i = .fltFilt ft) ∨ i = .pxcUnpack ∨
        i = .pxcPack) ∧
      t.cmdq = s.cmdq ∧ t.params = s.params ∧ t.drawEpoch = s.drawEpoch

/-- 20_memory.md R51: a command writes no DMEM byte outside its write range, and what it does depends on no DMEM byte
outside its read range. -/
def Obligations.CommandsTouchOnlyTheirRanges : Prop :=
  ∀ (i : Instr) (s t : State), exec i s = .next t →
    (∀ a, ¬ InRange (writeRange i s) a → dmemByte t a = dmemByte s a) ∧
      ∀ dmem' : Memory, (∀ a, InRange (readRange i s) a → dmemByte { s with dmem := dmem' } a = dmemByte s a) →
        ∃ t', exec i { s with dmem := dmem' } = .next t' ∧ t' = { t with dmem := t'.dmem } ∧
          ((t.dmem = s.dmem ∧ t'.dmem = dmem') ∨ ∀ a, InRange (writeRange i s) a → dmemByte t' a = dmemByte t a)
end

