-- ==== Sys2Proof/Laws/State.lean ====
section
/-! SUPPORT. One lemma per field per named update of the state, true by rfl, so that no proof unfolds an update. -/

namespace Sys2Proof.Machine

section
variable (s : State) (a : Nat) (bytes : List Byte)

@[simp] theorem memWrite_params : (memWrite s a bytes).params = s.params := rfl
@[simp] theorem memWrite_src : (memWrite s a bytes).src = s.src := rfl
@[simp] theorem memWrite_dst : (memWrite s a bytes).dst = s.dst := rfl
@[simp] theorem memWrite_len : (memWrite s a bytes).len = s.len := rfl
@[simp] theorem memWrite_width : (memWrite s a bytes).width = s.width := rfl
@[simp] theorem memWrite_imgcfg : (memWrite s a bytes).imgcfg = s.imgcfg := rfl
@[simp] theorem memWrite_crcAcc : (memWrite s a bytes).crcAcc = s.crcAcc := rfl
@[simp] theorem memWrite_err : (memWrite s a bytes).err = s.err := rfl
@[simp] theorem memWrite_palv : (memWrite s a bytes).palv = s.palv := rfl
@[simp] theorem memWrite_lastf : (memWrite s a bytes).lastf = s.lastf := rfl
@[simp] theorem memWrite_errCode : (memWrite s a bytes).errCode = s.errCode := rfl
@[simp] theorem memWrite_errCmd : (memWrite s a bytes).errCmd = s.errCmd := rfl
@[simp] theorem memWrite_palCount : (memWrite s a bytes).palCount = s.palCount := rfl
@[simp] theorem memWrite_rowCount : (memWrite s a bytes).rowCount = s.rowCount := rfl
@[simp] theorem memWrite_scoreSub : (memWrite s a bytes).scoreSub = s.scoreSub := rfl
@[simp] theorem memWrite_scoreUp : (memWrite s a bytes).scoreUp = s.scoreUp := rfl
@[simp] theorem memWrite_scoreAvg : (memWrite s a bytes).scoreAvg = s.scoreAvg := rfl
@[simp] theorem memWrite_scorePaeth : (memWrite s a bytes).scorePaeth = s.scorePaeth := rfl
@[simp] theorem memWrite_errInfo : (memWrite s a bytes).errInfo = s.errInfo := rfl
@[simp] theorem memWrite_cmdq : (memWrite s a bytes).cmdq = s.cmdq := rfl
@[simp] theorem memWrite_prev : (memWrite s a bytes).prev = s.prev := rfl
@[simp] theorem memWrite_pal : (memWrite s a bytes).pal = s.pal := rfl
@[simp] theorem memWrite_dmem : (memWrite s a bytes).dmem = spliced s.dmem a bytes.length (numbered a bytes) := rfl
@[simp] theorem memWrite_drawEpoch : (memWrite s a bytes).drawEpoch = s.drawEpoch := rfl

end

section
variable (s : State) (row : List Byte)

@[simp] theorem storePrev_params : (storePrev s row).params = s.params := rfl
@[simp] theorem storePrev_src : (storePrev s row).src = s.src := rfl
@[simp] theorem storePrev_dst : (storePrev s row).dst = s.dst := rfl
@[simp] theorem storePrev_len : (storePrev s row).len = s.len := rfl
@[simp] theorem storePrev_width : (storePrev s row).width = s.width := rfl
@[simp] theorem storePrev_imgcfg : (storePrev s row).imgcfg = s.imgcfg := rfl
@[simp] theorem storePrev_crcAcc : (storePrev s row).crcAcc = s.crcAcc := rfl
@[simp] theorem storePrev_err : (storePrev s row).err = s.err := rfl
@[simp] theorem storePrev_palv : (storePrev s row).palv = s.palv := rfl
@[simp] theorem storePrev_lastf : (storePrev s row).lastf = s.lastf := rfl
@[simp] theorem storePrev_errCode : (storePrev s row).errCode = s.errCode := rfl
@[simp] theorem storePrev_errCmd : (storePrev s row).errCmd = s.errCmd := rfl
@[simp] theorem storePrev_palCount : (storePrev s row).palCount = s.palCount := rfl
@[simp] theorem storePrev_rowCount : (storePrev s row).rowCount = s.rowCount := rfl
@[simp] theorem storePrev_scoreSub : (storePrev s row).scoreSub = s.scoreSub := rfl
@[simp] theorem storePrev_scoreUp : (storePrev s row).scoreUp = s.scoreUp := rfl
@[simp] theorem storePrev_scoreAvg : (storePrev s row).scoreAvg = s.scoreAvg := rfl
@[simp] theorem storePrev_scorePaeth : (storePrev s row).scorePaeth = s.scorePaeth := rfl
@[simp] theorem storePrev_errInfo : (storePrev s row).errInfo = s.errInfo := rfl
@[simp] theorem storePrev_cmdq : (storePrev s row).cmdq = s.cmdq := rfl
@[simp] theorem storePrev_prev :
    (storePrev s row).prev = spliced s.prev 0 row.length ((numbered 0 row).filter fun c => decide (c.2 ≠ 0#8)) := rfl
@[simp] theorem storePrev_pal : (storePrev s row).pal = s.pal := rfl
@[simp] theorem storePrev_dmem : (storePrev s row).dmem = s.dmem := rfl
@[simp] theorem storePrev_drawEpoch : (storePrev s row).drawEpoch = s.drawEpoch := rfl

end

section
variable (s : State)

@[simp] theorem clearPrev_params : (clearPrev s).params = s.params := rfl
@[simp] theorem clearPrev_src : (clearPrev s).src = s.src := rfl
@[simp] theorem clearPrev_dst : (clearPrev s).dst = s.dst := rfl
@[simp] theorem clearPrev_len : (clearPrev s).len = s.len := rfl
@[simp] theorem clearPrev_width : (clearPrev s).width = s.width := rfl
@[simp] theorem clearPrev_imgcfg : (clearPrev s).imgcfg = s.imgcfg := rfl
@[simp] theorem clearPrev_crcAcc : (clearPrev s).crcAcc = s.crcAcc := rfl
@[simp] theorem clearPrev_err : (clearPrev s).err = s.err := rfl
@[simp] theorem clearPrev_palv : (clearPrev s).palv = s.palv := rfl
@[simp] theorem clearPrev_lastf : (clearPrev s).lastf = s.lastf := rfl
@[simp] theorem clearPrev_errCode : (clearPrev s).errCode = s.errCode := rfl
@[simp] theorem clearPrev_errCmd : (clearPrev s).errCmd = s.errCmd := rfl
@[simp] theorem clearPrev_palCount : (clearPrev s).palCount = s.palCount := rfl
@[simp] theorem clearPrev_rowCount : (clearPrev s).rowCount = s.rowCount := rfl
@[simp] theorem clearPrev_scoreSub : (clearPrev s).scoreSub = s.scoreSub := rfl
@[simp] theorem clearPrev_scoreUp : (clearPrev s).scoreUp = s.scoreUp := rfl
@[simp] theorem clearPrev_scoreAvg : (clearPrev s).scoreAvg = s.scoreAvg := rfl
@[simp] theorem clearPrev_scorePaeth : (clearPrev s).scorePaeth = s.scorePaeth := rfl
@[simp] theorem clearPrev_errInfo : (clearPrev s).errInfo = s.errInfo := rfl
@[simp] theorem clearPrev_cmdq : (clearPrev s).cmdq = s.cmdq := rfl
@[simp] theorem clearPrev_prev : (clearPrev s).prev = [] := rfl
@[simp] theorem clearPrev_pal : (clearPrev s).pal = s.pal := rfl
@[simp] theorem clearPrev_dmem : (clearPrev s).dmem = s.dmem := rfl
@[simp] theorem clearPrev_drawEpoch : (clearPrev s).drawEpoch = s.drawEpoch := rfl

end

section
variable (s : State) (entries : List Rgba)

@[simp] theorem storePal_params : (storePal s entries).params = s.params := rfl
@[simp] theorem storePal_src : (storePal s entries).src = s.src := rfl
@[simp] theorem storePal_dst : (storePal s entries).dst = s.dst := rfl
@[simp] theorem storePal_len : (storePal s entries).len = s.len := rfl
@[simp] theorem storePal_width : (storePal s entries).width = s.width := rfl
@[simp] theorem storePal_imgcfg : (storePal s entries).imgcfg = s.imgcfg := rfl
@[simp] theorem storePal_crcAcc : (storePal s entries).crcAcc = s.crcAcc := rfl
@[simp] theorem storePal_err : (storePal s entries).err = s.err := rfl
@[simp] theorem storePal_palv : (storePal s entries).palv = s.palv := rfl
@[simp] theorem storePal_lastf : (storePal s entries).lastf = s.lastf := rfl
@[simp] theorem storePal_errCode : (storePal s entries).errCode = s.errCode := rfl
@[simp] theorem storePal_errCmd : (storePal s entries).errCmd = s.errCmd := rfl
@[simp] theorem storePal_palCount : (storePal s entries).palCount = s.palCount := rfl
@[simp] theorem storePal_rowCount : (storePal s entries).rowCount = s.rowCount := rfl
@[simp] theorem storePal_scoreSub : (storePal s entries).scoreSub = s.scoreSub := rfl
@[simp] theorem storePal_scoreUp : (storePal s entries).scoreUp = s.scoreUp := rfl
@[simp] theorem storePal_scoreAvg : (storePal s entries).scoreAvg = s.scoreAvg := rfl
@[simp] theorem storePal_scorePaeth : (storePal s entries).scorePaeth = s.scorePaeth := rfl
@[simp] theorem storePal_errInfo : (storePal s entries).errInfo = s.errInfo := rfl
@[simp] theorem storePal_cmdq : (storePal s entries).cmdq = s.cmdq := rfl
@[simp] theorem storePal_prev : (storePal s entries).prev = s.prev := rfl
@[simp] theorem storePal_pal : (storePal s entries).pal = spliced s.pal 0 entries.length (numbered 0 entries) := rfl
@[simp] theorem storePal_dmem : (storePal s entries).dmem = s.dmem := rfl
@[simp] theorem storePal_drawEpoch : (storePal s entries).drawEpoch = s.drawEpoch := rfl

end

section
variable (w : Word) (e : Raise) (s : State)

@[simp] theorem errorEntry_params : (errorEntry w e s).params = s.params := rfl
@[simp] theorem errorEntry_src : (errorEntry w e s).src = s.src := rfl
@[simp] theorem errorEntry_dst : (errorEntry w e s).dst = s.dst := rfl
@[simp] theorem errorEntry_len : (errorEntry w e s).len = s.len := rfl
@[simp] theorem errorEntry_width : (errorEntry w e s).width = s.width := rfl
@[simp] theorem errorEntry_imgcfg : (errorEntry w e s).imgcfg = s.imgcfg := rfl
@[simp] theorem errorEntry_crcAcc : (errorEntry w e s).crcAcc = s.crcAcc := rfl
@[simp] theorem errorEntry_err : (errorEntry w e s).err = true := rfl
@[simp] theorem errorEntry_palv : (errorEntry w e s).palv = s.palv := rfl
@[simp] theorem errorEntry_lastf : (errorEntry w e s).lastf = s.lastf := rfl
@[simp] theorem errorEntry_errCode : (errorEntry w e s).errCode = e.kind.code := rfl
@[simp] theorem errorEntry_errCmd : (errorEntry w e s).errCmd = w := rfl
@[simp] theorem errorEntry_palCount : (errorEntry w e s).palCount = s.palCount := rfl
@[simp] theorem errorEntry_rowCount : (errorEntry w e s).rowCount = s.rowCount := rfl
@[simp] theorem errorEntry_scoreSub : (errorEntry w e s).scoreSub = s.scoreSub := rfl
@[simp] theorem errorEntry_scoreUp : (errorEntry w e s).scoreUp = s.scoreUp := rfl
@[simp] theorem errorEntry_scoreAvg : (errorEntry w e s).scoreAvg = s.scoreAvg := rfl
@[simp] theorem errorEntry_scorePaeth : (errorEntry w e s).scorePaeth = s.scorePaeth := rfl
@[simp] theorem errorEntry_errInfo : (errorEntry w e s).errInfo = e.info := rfl
@[simp] theorem errorEntry_cmdq : (errorEntry w e s).cmdq = s.cmdq := rfl
@[simp] theorem errorEntry_prev : (errorEntry w e s).prev = s.prev := rfl
@[simp] theorem errorEntry_pal : (errorEntry w e s).pal = s.pal := rfl
@[simp] theorem errorEntry_dmem : (errorEntry w e s).dmem = s.dmem := rfl
@[simp] theorem errorEntry_drawEpoch : (errorEntry w e s).drawEpoch = s.drawEpoch := rfl

end

section
variable (s : State)

@[simp] theorem errorReturn_params : (errorReturn s).params = s.params := rfl
@[simp] theorem errorReturn_src : (errorReturn s).src = s.src := rfl
@[simp] theorem errorReturn_dst : (errorReturn s).dst = s.dst := rfl
@[simp] theorem errorReturn_len : (errorReturn s).len = s.len := rfl
@[simp] theorem errorReturn_width : (errorReturn s).width = s.width := rfl
@[simp] theorem errorReturn_imgcfg : (errorReturn s).imgcfg = s.imgcfg := rfl
@[simp] theorem errorReturn_crcAcc : (errorReturn s).crcAcc = s.crcAcc := rfl
@[simp] theorem errorReturn_err : (errorReturn s).err = false := rfl
@[simp] theorem errorReturn_palv : (errorReturn s).palv = s.palv := rfl
@[simp] theorem errorReturn_lastf : (errorReturn s).lastf = s.lastf := rfl
@[simp] theorem errorReturn_errCode : (errorReturn s).errCode = 0x00#8 := rfl
@[simp] theorem errorReturn_errCmd : (errorReturn s).errCmd = s.errCmd := rfl
@[simp] theorem errorReturn_palCount : (errorReturn s).palCount = s.palCount := rfl
@[simp] theorem errorReturn_rowCount : (errorReturn s).rowCount = s.rowCount := rfl
@[simp] theorem errorReturn_scoreSub : (errorReturn s).scoreSub = s.scoreSub := rfl
@[simp] theorem errorReturn_scoreUp : (errorReturn s).scoreUp = s.scoreUp := rfl
@[simp] theorem errorReturn_scoreAvg : (errorReturn s).scoreAvg = s.scoreAvg := rfl
@[simp] theorem errorReturn_scorePaeth : (errorReturn s).scorePaeth = s.scorePaeth := rfl
@[simp] theorem errorReturn_errInfo : (errorReturn s).errInfo = s.errInfo := rfl
@[simp] theorem errorReturn_cmdq : (errorReturn s).cmdq = s.cmdq := rfl
@[simp] theorem errorReturn_prev : (errorReturn s).prev = s.prev := rfl
@[simp] theorem errorReturn_pal : (errorReturn s).pal = s.pal := rfl
@[simp] theorem errorReturn_dmem : (errorReturn s).dmem = s.dmem := rfl
@[simp] theorem errorReturn_drawEpoch : (errorReturn s).drawEpoch = s.drawEpoch := rfl

end

section
variable (s : State)

@[simp] theorem popCmdq_params : (popCmdq s).params = s.params := rfl
@[simp] theorem popCmdq_src : (popCmdq s).src = s.src := rfl
@[simp] theorem popCmdq_dst : (popCmdq s).dst = s.dst := rfl
@[simp] theorem popCmdq_len : (popCmdq s).len = s.len := rfl
@[simp] theorem popCmdq_width : (popCmdq s).width = s.width := rfl
@[simp] theorem popCmdq_imgcfg : (popCmdq s).imgcfg = s.imgcfg := rfl
@[simp] theorem popCmdq_crcAcc : (popCmdq s).crcAcc = s.crcAcc := rfl
@[simp] theorem popCmdq_err : (popCmdq s).err = s.err := rfl
@[simp] theorem popCmdq_palv : (popCmdq s).palv = s.palv := rfl
@[simp] theorem popCmdq_lastf : (popCmdq s).lastf = s.lastf := rfl
@[simp] theorem popCmdq_errCode : (popCmdq s).errCode = s.errCode := rfl
@[simp] theorem popCmdq_errCmd : (popCmdq s).errCmd = s.errCmd := rfl
@[simp] theorem popCmdq_palCount : (popCmdq s).palCount = s.palCount := rfl
@[simp] theorem popCmdq_rowCount : (popCmdq s).rowCount = s.rowCount := rfl
@[simp] theorem popCmdq_scoreSub : (popCmdq s).scoreSub = s.scoreSub := rfl
@[simp] theorem popCmdq_scoreUp : (popCmdq s).scoreUp = s.scoreUp := rfl
@[simp] theorem popCmdq_scoreAvg : (popCmdq s).scoreAvg = s.scoreAvg := rfl
@[simp] theorem popCmdq_scorePaeth : (popCmdq s).scorePaeth = s.scorePaeth := rfl
@[simp] theorem popCmdq_errInfo : (popCmdq s).errInfo = s.errInfo := rfl
@[simp] theorem popCmdq_cmdq : (popCmdq s).cmdq = s.cmdq.tail := rfl
@[simp] theorem popCmdq_prev : (popCmdq s).prev = s.prev := rfl
@[simp] theorem popCmdq_pal : (popCmdq s).pal = s.pal := rfl
@[simp] theorem popCmdq_dmem : (popCmdq s).dmem = s.dmem := rfl
@[simp] theorem popCmdq_drawEpoch : (popCmdq s).drawEpoch = s.drawEpoch := rfl

end

section
variable (s : State) (w : Word)

@[simp] theorem pushCmdq_params : (pushCmdq s w).params = s.params := rfl
@[simp] theorem pushCmdq_src : (pushCmdq s w).src = s.src := rfl
@[simp] theorem pushCmdq_dst : (pushCmdq s w).dst = s.dst := rfl
@[simp] theorem pushCmdq_len : (pushCmdq s w).len = s.len := rfl
@[simp] theorem pushCmdq_width : (pushCmdq s w).width = s.width := rfl
@[simp] theorem pushCmdq_imgcfg : (pushCmdq s w).imgcfg = s.imgcfg := rfl
@[simp] theorem pushCmdq_crcAcc : (pushCmdq s w).crcAcc = s.crcAcc := rfl
@[simp] theorem pushCmdq_err : (pushCmdq s w).err = s.err := rfl
@[simp] theorem pushCmdq_palv : (pushCmdq s w).palv = s.palv := rfl
@[simp] theorem pushCmdq_lastf : (pushCmdq s w).lastf = s.lastf := rfl
@[simp] theorem pushCmdq_errCode : (pushCmdq s w).errCode = s.errCode := rfl
@[simp] theorem pushCmdq_errCmd : (pushCmdq s w).errCmd = s.errCmd := rfl
@[simp] theorem pushCmdq_palCount : (pushCmdq s w).palCount = s.palCount := rfl
@[simp] theorem pushCmdq_rowCount : (pushCmdq s w).rowCount = s.rowCount := rfl
@[simp] theorem pushCmdq_scoreSub : (pushCmdq s w).scoreSub = s.scoreSub := rfl
@[simp] theorem pushCmdq_scoreUp : (pushCmdq s w).scoreUp = s.scoreUp := rfl
@[simp] theorem pushCmdq_scoreAvg : (pushCmdq s w).scoreAvg = s.scoreAvg := rfl
@[simp] theorem pushCmdq_scorePaeth : (pushCmdq s w).scorePaeth = s.scorePaeth := rfl
@[simp] theorem pushCmdq_errInfo : (pushCmdq s w).errInfo = s.errInfo := rfl
@[simp] theorem pushCmdq_cmdq : (pushCmdq s w).cmdq = s.cmdq ++ [w] := rfl
@[simp] theorem pushCmdq_prev : (pushCmdq s w).prev = s.prev := rfl
@[simp] theorem pushCmdq_pal : (pushCmdq s w).pal = s.pal := rfl
@[simp] theorem pushCmdq_dmem : (pushCmdq s w).dmem = s.dmem := rfl
@[simp] theorem pushCmdq_drawEpoch : (pushCmdq s w).drawEpoch = s.drawEpoch := rfl

end

section
variable (s : State) (w : Word)

@[simp] theorem replaceHead_params : (replaceHead s w).params = s.params := rfl
@[simp] theorem replaceHead_src : (replaceHead s w).src = s.src := rfl
@[simp] theorem replaceHead_dst : (replaceHead s w).dst = s.dst := rfl
@[simp] theorem replaceHead_len : (replaceHead s w).len = s.len := rfl
@[simp] theorem replaceHead_width : (replaceHead s w).width = s.width := rfl
@[simp] theorem replaceHead_imgcfg : (replaceHead s w).imgcfg = s.imgcfg := rfl
@[simp] theorem replaceHead_crcAcc : (replaceHead s w).crcAcc = s.crcAcc := rfl
@[simp] theorem replaceHead_err : (replaceHead s w).err = s.err := rfl
@[simp] theorem replaceHead_palv : (replaceHead s w).palv = s.palv := rfl
@[simp] theorem replaceHead_lastf : (replaceHead s w).lastf = s.lastf := rfl
@[simp] theorem replaceHead_errCode : (replaceHead s w).errCode = s.errCode := rfl
@[simp] theorem replaceHead_errCmd : (replaceHead s w).errCmd = s.errCmd := rfl
@[simp] theorem replaceHead_palCount : (replaceHead s w).palCount = s.palCount := rfl
@[simp] theorem replaceHead_rowCount : (replaceHead s w).rowCount = s.rowCount := rfl
@[simp] theorem replaceHead_scoreSub : (replaceHead s w).scoreSub = s.scoreSub := rfl
@[simp] theorem replaceHead_scoreUp : (replaceHead s w).scoreUp = s.scoreUp := rfl
@[simp] theorem replaceHead_scoreAvg : (replaceHead s w).scoreAvg = s.scoreAvg := rfl
@[simp] theorem replaceHead_scorePaeth : (replaceHead s w).scorePaeth = s.scorePaeth := rfl
@[simp] theorem replaceHead_errInfo : (replaceHead s w).errInfo = s.errInfo := rfl
@[simp] theorem replaceHead_cmdq : (replaceHead s w).cmdq = w :: s.cmdq.tail := rfl
@[simp] theorem replaceHead_prev : (replaceHead s w).prev = s.prev := rfl
@[simp] theorem replaceHead_pal : (replaceHead s w).pal = s.pal := rfl
@[simp] theorem replaceHead_dmem : (replaceHead s w).dmem = s.dmem := rfl
@[simp] theorem replaceHead_drawEpoch : (replaceHead s w).drawEpoch = s.drawEpoch := rfl

end

section
variable (t : FilterType) (raw : List Byte) (s : State)

@[simp] theorem rowDone_params : (rowDone t raw s).params = s.params := rfl
@[simp] theorem rowDone_src : (rowDone t raw s).src = s.src := rfl
@[simp] theorem rowDone_dst : (rowDone t raw s).dst = s.dst := rfl
@[simp] theorem rowDone_len : (rowDone t raw s).len = s.len := rfl
@[simp] theorem rowDone_width : (rowDone t raw s).width = s.width := rfl
@[simp] theorem rowDone_imgcfg : (rowDone t raw s).imgcfg = s.imgcfg := rfl
@[simp] theorem rowDone_crcAcc : (rowDone t raw s).crcAcc = s.crcAcc := rfl
@[simp] theorem rowDone_err : (rowDone t raw s).err = s.err := rfl
@[simp] theorem rowDone_palv : (rowDone t raw s).palv = s.palv := rfl
@[simp] theorem rowDone_lastf : (rowDone t raw s).lastf = t := rfl
@[simp] theorem rowDone_errCode : (rowDone t raw s).errCode = s.errCode := rfl
@[simp] theorem rowDone_errCmd : (rowDone t raw s).errCmd = s.errCmd := rfl
@[simp] theorem rowDone_palCount : (rowDone t raw s).palCount = s.palCount := rfl
@[simp] theorem rowDone_rowCount : (rowDone t raw s).rowCount = s.rowCount + 1#32 := rfl
@[simp] theorem rowDone_scoreSub : (rowDone t raw s).scoreSub = s.scoreSub := rfl
@[simp] theorem rowDone_scoreUp : (rowDone t raw s).scoreUp = s.scoreUp := rfl
@[simp] theorem rowDone_scoreAvg : (rowDone t raw s).scoreAvg = s.scoreAvg := rfl
@[simp] theorem rowDone_scorePaeth : (rowDone t raw s).scorePaeth = s.scorePaeth := rfl
@[simp] theorem rowDone_errInfo : (rowDone t raw s).errInfo = s.errInfo := rfl
@[simp] theorem rowDone_cmdq : (rowDone t raw s).cmdq = s.cmdq := rfl
@[simp] theorem rowDone_prev : (rowDone t raw s).prev = (storePrev s raw).prev := rfl
@[simp] theorem rowDone_pal : (rowDone t raw s).pal = s.pal := rfl
@[simp] theorem rowDone_dmem : (rowDone t raw s).dmem = s.dmem := rfl
@[simp] theorem rowDone_drawEpoch : (rowDone t raw s).drawEpoch = s.drawEpoch := rfl

end

section
variable (bpp : Nat) (prior row : List Byte) (s : State)

@[simp] theorem storeScores_params : (storeScores bpp prior row s).params = s.params := rfl
@[simp] theorem storeScores_src : (storeScores bpp prior row s).src = s.src := rfl
@[simp] theorem storeScores_dst : (storeScores bpp prior row s).dst = s.dst := rfl
@[simp] theorem storeScores_len : (storeScores bpp prior row s).len = s.len := rfl
@[simp] theorem storeScores_width : (storeScores bpp prior row s).width = s.width := rfl
@[simp] theorem storeScores_imgcfg : (storeScores bpp prior row s).imgcfg = s.imgcfg := rfl
@[simp] theorem storeScores_crcAcc : (storeScores bpp prior row s).crcAcc = s.crcAcc := rfl
@[simp] theorem storeScores_err : (storeScores bpp prior row s).err = s.err := rfl
@[simp] theorem storeScores_palv : (storeScores bpp prior row s).palv = s.palv := rfl
@[simp] theorem storeScores_lastf : (storeScores bpp prior row s).lastf = s.lastf := rfl
@[simp] theorem storeScores_errCode : (storeScores bpp prior row s).errCode = s.errCode := rfl
@[simp] theorem storeScores_errCmd : (storeScores bpp prior row s).errCmd = s.errCmd := rfl
@[simp] theorem storeScores_palCount : (storeScores bpp prior row s).palCount = s.palCount := rfl
@[simp] theorem storeScores_rowCount : (storeScores bpp prior row s).rowCount = s.rowCount := rfl
@[simp] theorem storeScores_scoreSub : (storeScores bpp prior row s).scoreSub = scoreWord .sub bpp row prior := rfl
@[simp] theorem storeScores_scoreUp : (storeScores bpp prior row s).scoreUp = scoreWord .up bpp row prior := rfl
@[simp] theorem storeScores_scoreAvg : (storeScores bpp prior row s).scoreAvg = scoreWord .average bpp row prior := rfl
@[simp] theorem storeScores_scorePaeth :
    (storeScores bpp prior row s).scorePaeth = scoreWord .paeth bpp row prior := rfl
@[simp] theorem storeScores_errInfo : (storeScores bpp prior row s).errInfo = s.errInfo := rfl
@[simp] theorem storeScores_cmdq : (storeScores bpp prior row s).cmdq = s.cmdq := rfl
@[simp] theorem storeScores_prev : (storeScores bpp prior row s).prev = s.prev := rfl
@[simp] theorem storeScores_pal : (storeScores bpp prior row s).pal = s.pal := rfl
@[simp] theorem storeScores_dmem : (storeScores bpp prior row s).dmem = s.dmem := rfl
@[simp] theorem storeScores_drawEpoch : (storeScores bpp prior row s).drawEpoch = s.drawEpoch := rfl

end

end Sys2Proof.Machine
end

