-- ==== Sys2Proof/Laws/Ops.lean ====
section
/-! SUPPORT. What the shared operations do: reads after writes, canonical forms, byte order, the range check, and how a
command ends. -/

namespace Sys2Proof.Machine

/-! ## Cells -/

section Cells
variable {α : Type}

@[simp] theorem entryAt_nil (k : Nat) : entryAt ([] : List (Nat × α)) k = none := rfl

theorem entryAt_append (m m' : List (Nat × α)) (k : Nat) : entryAt (m ++ m') k = (entryAt m k).or (entryAt m' k) := by
  induction m with
  | nil => simp
  | cons c rest ih => by_cases h : c.1 = k <;> simp [entryAt, h, ih]

theorem entryAt_filter_key (p : Nat → Bool) (m : List (Nat × α)) (k : Nat) :
    entryAt (m.filter fun c => p c.1) k = if p k then entryAt m k else none := by
  induction m with
  | nil => simp
  | cons c rest ih =>
    by_cases hp : p c.1 = true <;> by_cases hk : c.1 = k <;> simp_all [entryAt]

theorem entryAt_numbered (vs : List α) (a k : Nat) :
    entryAt (numbered a vs) k = if a ≤ k then vs[k - a]? else none := by
  induction vs generalizing a with
  | nil => simp [numbered]
  | cons v vs ih =>
    simp only [numbered, entryAt, ih]
    rcases Nat.lt_trichotomy a k with h | h | h
    · have e : k - a = (k - (a + 1)) + 1 := by omega
      rw [if_neg (by omega), if_pos (by omega), if_pos (by omega), e, List.getElem?_cons_succ]
    · simp [h]
    · rw [if_neg (by omega), if_neg (by omega), if_neg (by omega)]

/-- What a splice leaves under a key: the new cells inside the range, the old ones outside it. -/
theorem entryAt_spliced (m new : List (Nat × α)) (a n k : Nat)
    (hout : ∀ k, k < a ∨ a + n ≤ k → entryAt new k = none) :
    entryAt (spliced m a n new) k = if a ≤ k ∧ k < a + n then entryAt new k else entryAt m k := by
  unfold spliced
  rw [entryAt_append, entryAt_append, entryAt_filter_key (fun x => decide (x < a)),
    entryAt_filter_key (fun x => decide (a + n ≤ x))]
  by_cases h1 : k < a
  · simp [h1, show ¬ a ≤ k by omega, show ¬ a + n ≤ k by omega, hout k (.inl h1)]
  · by_cases h2 : a + n ≤ k
    · simp [h1, h2, hout k (.inr h2)]
    · simp [h1, h2, show a ≤ k by omega, show k < a + n by omega]

theorem entryAt_numbered_outside (vs : List α) (a k : Nat) (h : k < a ∨ a + vs.length ≤ k) :
    entryAt (numbered a vs) k = none := by
  rw [entryAt_numbered]
  split
  · exact List.getElem?_eq_none (by omega)
  · rfl

/-- What a run of values leaves under a key. -/
theorem entryAt_spliced_numbered (m : List (Nat × α)) (a : Nat) (vs : List α) (k : Nat) :
    entryAt (spliced m a vs.length (numbered a vs)) k =
      if a ≤ k ∧ k < a + vs.length then vs[k - a]? else entryAt m k := by
  rw [entryAt_spliced _ _ _ _ _ fun k h => entryAt_numbered_outside vs a k h, entryAt_numbered]
  split <;> simp_all

theorem numbered_bounds (vs : List α) (a : Nat) : ∀ c ∈ numbered a vs, a ≤ c.1 ∧ c.1 < a + vs.length := by
  induction vs generalizing a with
  | nil => simp [numbered]
  | cons v vs ih =>
    intro c hc
    rcases List.mem_cons.1 hc with rfl | hc
    · simp
    · have := ih (a + 1) c hc
      simp only [List.length_cons]
      omega

theorem numbered_ascending (vs : List α) (a : Nat) : (numbered a vs).Pairwise fun c d => c.1 < d.1 := by
  induction vs generalizing a with
  | nil => exact List.Pairwise.nil
  | cons v vs ih => exact List.Pairwise.cons (fun c hc => (numbered_bounds vs (a + 1) c hc).1) (ih (a + 1))

/-- A splice keeps the cells ascending and in range. -/
theorem spliced_wf {bound a n : Nat} {m new : List (Nat × α)} (hm : cellsWf bound m)
    (hnew : new.Pairwise fun c d => c.1 < d.1) (hin : ∀ c ∈ new, a ≤ c.1 ∧ c.1 < a + n) (hb : a + n ≤ bound) :
    cellsWf bound (spliced m a n new) := by
  unfold spliced
  refine ⟨?_, ?_⟩
  · refine List.pairwise_append.2 ⟨List.pairwise_append.2 ⟨hm.1.filter _, hnew, ?_⟩, hm.1.filter _, ?_⟩
    · intro c hc d hd
      have h1 : c.1 < a := by simpa using (List.mem_filter.1 hc).2
      have h2 := hin d hd
      omega
    · intro c hc d hd
      have h2 : a + n ≤ d.1 := by simpa using (List.mem_filter.1 hd).2
      rcases List.mem_append.1 hc with hc | hc
      · have h1 : c.1 < a := by simpa using (List.mem_filter.1 hc).2
        omega
      · have h1 := hin c hc
        omega
  · intro c hc
    rcases List.mem_append.1 hc with hc | hc
    · rcases List.mem_append.1 hc with hc | hc
      · exact hm.2 c (List.mem_filter.1 hc).1
      · have h1 := hin c hc
        omega
    · exact hm.2 c (List.mem_filter.1 hc).1

theorem entryAt_eq_some_of_mem {m : List (Nat × α)} (h : m.Pairwise fun c d => c.1 < d.1) {c : Nat × α} (hc : c ∈ m) :
    entryAt m c.1 = some c.2 := by
  induction m with
  | nil => simp at hc
  | cons d rest ih =>
    rcases List.mem_cons.1 hc with rfl | hc
    · simp [entryAt]
    · have h1 := (List.pairwise_cons.1 h).1 c hc
      simp only [entryAt]
      rw [if_neg (by omega)]
      exact ih (List.pairwise_cons.1 h).2 hc

theorem mem_of_entryAt {m : List (Nat × α)} {k : Nat} {v : α} (h : entryAt m k = some v) : (k, v) ∈ m := by
  induction m with
  | nil => simp at h
  | cons d rest ih =>
    by_cases hk : d.1 = k
    · simp only [entryAt, hk, if_true, Option.some.injEq] at h
      simp [← hk, ← h]
    · simp only [entryAt, hk, if_false] at h
      exact List.mem_cons_of_mem _ (ih h)

/-- The canonical form is canonical: two ascending lists that hold the same under every key are the same list. -/
theorem ascending_ext {m m' : List (Nat × α)} (h : m.Pairwise fun c d => c.1 < d.1)
    (h' : m'.Pairwise fun c d => c.1 < d.1) (heq : ∀ k, entryAt m k = entryAt m' k) : m = m' := by
  have hmem : ∀ c, c ∈ m ↔ c ∈ m' := fun c =>
    ⟨fun hc => mem_of_entryAt ((heq c.1).symm.trans (entryAt_eq_some_of_mem h hc)),
      fun hc => mem_of_entryAt ((heq c.1).trans (entryAt_eq_some_of_mem h' hc))⟩
  have nd : ∀ {l : List (Nat × α)}, (l.Pairwise fun c d => c.1 < d.1) → l.Nodup := fun hl =>
    hl.imp fun hcd heq => by simp [heq] at hcd
  exact ((List.perm_ext_iff_of_nodup (nd h) (nd h')).2 hmem).eq_of_pairwise
    (fun a b _ _ hab hba => absurd hab (by omega)) h h'

end Cells

/-! ## DMEM -/

@[simp] theorem length_memRead (s : State) (a n : Nat) : (memRead s a n).length = n := by simp [memRead]

theorem getElem?_memRead (s : State) (a n i : Nat) :
    (memRead s a n)[i]? = if i < n then some (dmemByte s (a + i)) else none := by
  by_cases h : i < n <;> simp [memRead, h]

/-- Byte `i` of a read range. -/
theorem getD_memRead (s : State) (a n i : Nat) (h : i < n) : (memRead s a n).getD i 0 = dmemByte s (a + i) := by
  rw [List.getD_eq_getElem?_getD, getElem?_memRead, if_pos h]
  rfl

/-- A read depends on DMEM and the draw number alone. -/
theorem dmemByte_congr {s t : State} (hd : t.dmem = s.dmem) (he : t.drawEpoch = s.drawEpoch) (a : Nat) :
    dmemByte t a = dmemByte s a := by simp [dmemByte, hd, he]

/-- A read after a write: the written byte inside the range, the old byte outside it. -/
theorem dmemByte_memWrite (s : State) (a : Nat) (bytes : List Byte) (x : Nat) :
    dmemByte (memWrite s a bytes) x =
      if a ≤ x ∧ x < a + bytes.length then bytes.getD (x - a) 0 else dmemByte s x := by
  simp only [dmemByte, memWrite_dmem, memWrite_drawEpoch, entryAt_spliced_numbered]
  split
  · rename_i h
    have hx : x - a < bytes.length := by omega
    rw [List.getD_eq_getElem?_getD, List.getElem?_eq_getElem hx]
    rfl
  · rfl

theorem dmemByte_memWrite_inside (s : State) (a : Nat) (bytes : List Byte) (i : Nat) (h : i < bytes.length) :
    dmemByte (memWrite s a bytes) (a + i) = bytes.getD i 0 := by
  rw [dmemByte_memWrite, if_pos (by omega), Nat.add_sub_cancel_left]

theorem dmemByte_memWrite_outside (s : State) (a : Nat) (bytes : List Byte) (x : Nat)
    (h : x < a ∨ a + bytes.length ≤ x) : dmemByte (memWrite s a bytes) x = dmemByte s x := by
  rw [dmemByte_memWrite, if_neg (by omega)]

/-- What was written is what is read back. -/
theorem memRead_memWrite_same (s : State) (a : Nat) (bytes : List Byte) :
    memRead (memWrite s a bytes) a bytes.length = bytes := by
  apply List.ext_getElem? fun i => ?_
  rw [getElem?_memRead]
  split
  · rename_i h
    rw [dmemByte_memWrite_inside _ _ _ _ h, List.getD_eq_getElem?_getD, List.getElem?_eq_getElem h]
    rfl
  · rename_i h
    exact (List.getElem?_eq_none (by omega)).symm

theorem memRead_congr {s t : State} {a b n : Nat} (h : ∀ i < n, dmemByte t (b + i) = dmemByte s (a + i)) :
    memRead t b n = memRead s a n := by
  apply List.ext_getElem? fun i => ?_
  rw [getElem?_memRead, getElem?_memRead]
  split
  · rename_i hi
    rw [h i hi]
  · rfl

/-- Every write inside DMEM keeps its canonical form. -/
theorem memWrite_wf (s : State) (a : Nat) (bytes : List Byte) (size : Nat) (h : Memory.wf size s.dmem)
    (hb : a + bytes.length ≤ size) : Memory.wf size (memWrite s a bytes).dmem :=
  spliced_wf h (numbered_ascending bytes a) (numbered_bounds bytes a) hb

/-! ## PREV -/

@[simp] theorem length_prevRow (s : State) (n : Nat) : (prevRow s n).length = n := by simp [prevRow]

theorem getElem?_prevRow (s : State) (n x : Nat) : (prevRow s n)[x]? = if x < n then some (prevByte s x) else none := by
  by_cases h : x < n <;> simp [prevRow, h]

theorem getD_prevRow (s : State) (n x : Nat) (h : x < n) : (prevRow s n).getD x 0 = prevByte s x := by
  rw [List.getD_eq_getElem?_getD, getElem?_prevRow, if_pos h]
  rfl

theorem prevByte_congr {s t : State} (h : t.prev = s.prev) (x : Nat) : prevByte t x = prevByte s x := by
  simp [prevByte, h]

@[simp] theorem prevByte_clearPrev (s : State) (x : Nat) : prevByte (clearPrev s) x = 0#8 := rfl

theorem entryAt_filter_nonzero (row : List Byte) (a x : Nat) :
    (entryAt ((numbered a row).filter fun c => decide (c.2 ≠ 0#8)) x).getD 0 =
      if a ≤ x then row.getD (x - a) 0 else 0 := by
  induction row generalizing a with
  | nil => simp [numbered]
  | cons b row ih =>
    have step : ∀ (rest : List (Nat × Byte)) , (entryAt (((a, b) :: rest).filter fun c => decide (c.2 ≠ 0#8)) x).getD 0 =
        if a = x then (if b = 0#8 then (entryAt (rest.filter fun c => decide (c.2 ≠ 0#8)) x).getD 0 else b)
        else (entryAt (rest.filter fun c => decide (c.2 ≠ 0#8)) x).getD 0 := by
      intro rest
      by_cases hb : b = 0#8 <;> by_cases hx : a = x <;> simp [entryAt, hb, hx]
    rw [numbered, step, ih]
    rcases Nat.lt_trichotomy a x with h | h | h
    · have e : x - a = (x - (a + 1)) + 1 := by omega
      rw [if_neg (by omega), if_pos (by omega), if_pos (by omega), e, List.getD_cons_succ]
    · subst h
      by_cases hb : b = 0#8 <;> simp [hb]
    · rw [if_neg (by omega), if_neg (by omega), if_neg (by omega)]

/-- PREV after a row is stored: the row below its length, the old byte above. -/
theorem prevByte_storePrev (s : State) (row : List Byte) (x : Nat) :
    prevByte (storePrev s row) x = if x < row.length then row.getD x 0 else prevByte s x := by
  have hout : ∀ k, k < 0 ∨ 0 + row.length ≤ k →
      entryAt ((numbered 0 row).filter fun c => decide (c.2 ≠ 0#8)) k = none := by
    intro k hk
    cases he : entryAt ((numbered 0 row).filter fun c => decide (c.2 ≠ 0#8)) k with
    | none => rfl
    | some v =>
      have := numbered_bounds row 0 _ (List.mem_filter.1 (mem_of_entryAt he)).1
      simp at this
      omega
  have hz := entryAt_filter_nonzero row 0 x
  simp only [prevByte, storePrev_prev]
  rw [entryAt_spliced _ _ _ _ _ hout]
  by_cases h : x < row.length
  · simpa [h] using hz
  · simp [h]

/-- Storing a row that fits keeps PREV's canonical form. -/
theorem storePrev_wf (s : State) (row : List Byte) (size : Nat) (h : RowBuffer.wf size s.prev)
    (hb : row.length ≤ size) : RowBuffer.wf size (storePrev s row).prev := by
  refine ⟨spliced_wf h.1 ((numbered_ascending row 0).filter _)
    (fun c hc => numbered_bounds row 0 c (List.mem_filter.1 hc).1) (by omega), ?_⟩
  intro c hc
  simp only [storePrev_prev, spliced] at hc
  rcases List.mem_append.1 hc with hc | hc
  · rcases List.mem_append.1 hc with hc | hc
    · exact h.2 c (List.mem_filter.1 hc).1
    · simpa using (List.mem_filter.1 hc).2
  · exact h.2 c (List.mem_filter.1 hc).1

/-! ## PAL -/

theorem palEntry_congr {s t : State} (hp : t.pal = s.pal) (he : t.drawEpoch = s.drawEpoch) (i : Nat) :
    palEntry t i = palEntry s i := by simp [palEntry, hp, he]

/-- PAL after entries are stored: the new ones below their number, the old ones above. -/
theorem palEntry_storePal (s : State) (es : List Rgba) (i : Nat) :
    palEntry (storePal s es) i = (if i < es.length then es[i]? else none).getD (palEntry s i) := by
  simp only [palEntry, storePal_pal, storePal_drawEpoch, entryAt_spliced_numbered]
  by_cases h : i < es.length
  · simp [h]
  · simp [h]

theorem entryAt_storePal_isSome (s : State) (es : List Rgba) (i : Nat)
    (h : i < es.length ∨ (entryAt s.pal i).isSome = true) : (entryAt (storePal s es).pal i).isSome = true := by
  simp only [storePal_pal, entryAt_spliced_numbered]
  by_cases hi : i < es.length
  · simp [hi]
  · simpa [hi] using h

/-- Storing at most 256 entries keeps PAL's canonical form. -/
theorem storePal_wf (s : State) (es : List Rgba) (h : Palette.wf s.pal) (hb : es.length ≤ 256) :
    Palette.wf (storePal s es).pal :=
  spliced_wf h (numbered_ascending es 0) (numbered_bounds es 0) (by omega)

/-! ## Byte order -/

theorem length_beBytes (v : Word) : (beBytes v).length = 4 := rfl

/-- A stored big-endian value reads back. -/
theorem be32_beBytes (v : Word) : be32 (beBytes v) = v := by
  apply BitVec.eq_of_getLsbD_eq
  intro i hi
  simp only [be32, beBytes, List.getD_cons_zero, List.getD_cons_succ, BitVec.getLsbD_append, BitVec.getLsbD_extractLsb']
  have : i = 0 ∨ 0 < i := by omega
  split
  · simp_all
  · split
    · rename_i h1 h2
      simp_all [show i - 8 < 8 by omega, show 8 + (i - 8) = i by omega]
    · split
      · rename_i h1 h2 h3
        simp_all [show i - 8 - 8 < 8 by omega, show 16 + (i - 8 - 8) = i by omega]
      · rename_i h1 h2 h3
        simp_all [show i - 8 - 8 - 8 < 8 by omega, show 24 + (i - 8 - 8 - 8) = i by omega]

/-- The big-endian value as a number. -/
theorem toNat_be32 (bytes : List Byte) :
    (be32 bytes).toNat = 2 ^ 24 * (bytes.getD 0 0).toNat + 2 ^ 16 * (bytes.getD 1 0).toNat +
      2 ^ 8 * (bytes.getD 2 0).toNat + (bytes.getD 3 0).toNat := by
  have e : ∀ {n : Nat} (x : BitVec n) (y : Byte), (x ++ y).toNat = 256 * x.toNat + y.toNat := by
    intro n x y
    rw [BitVec.toNat_append, ← Nat.shiftLeft_add_eq_or_of_lt y.isLt, Nat.shiftLeft_eq]
    omega
  simp only [be32, e]
  omega

/-! ## The range check and the end of a command -/

/-- `CheckRange` passes exactly when the end of the range, in exact integers, is at most DMEM_SIZE (20_memory.md R53). -/
theorem checkRange_eq (s : State) (a : Word) (n : Nat) :
    checkRange s a n = if a.toNat + n ≤ s.params.dmemSize then .ok () else .error ⟨.addressRange, a⟩ := by
  unfold checkRange
  by_cases h : a.toNat + n ≤ s.params.dmemSize
  · rw [if_pos h, if_neg (by omega)]
  · rw [if_neg h, if_pos (by omega)]

theorem checkRange_eq_ok (s : State) (a : Word) (n : Nat) (u : Unit) :
    checkRange s a n = .ok u ↔ a.toNat + n ≤ s.params.dmemSize := by
  rw [checkRange_eq]
  split <;> simp_all

/-- Binding after a check that passed, or failed. -/
@[simp] theorem ok_bind {α β : Type} (a : α) (f : α → Except Raise β) : (Except.ok a >>= f) = f a := rfl

@[simp] theorem error_bind {α β : Type} (e : Raise) (f : α → Except Raise β) :
    ((Except.error e : Except Raise α) >>= f) = .error e := rfl

/-- A bind that answers: both parts answered. -/
theorem bind_eq_ok {α β : Type} {x : Except Raise α} {f : α → Except Raise β} {b : β} :
    (x >>= f) = .ok b ↔ ∃ a, x = .ok a ∧ f a = .ok b := by
  cases x <;> simp

/-- A bind that raises: the first part raised, or the second did. -/
theorem bind_eq_error {α β : Type} {x : Except Raise α} {f : α → Except Raise β} {e : Raise} :
    (x >>= f) = .error e ↔ x = .error e ∨ ∃ a, x = .ok a ∧ f a = .error e := by
  cases x <;> simp

@[simp] theorem settle_ok (i : Instr) (s t : State) : settle i s (.ok t) = .next t := rfl

@[simp] theorem settle_error (i : Instr) (s : State) (e : Raise) :
    settle i s (.error e) = .next (errorEntry (encode i) e s) := rfl

/-- Every command ends in a next state: its effect, or error entry with none of it. -/
theorem settle_cases {i : Instr} {s t : State} {x : Except Raise State} (h : settle i s x = .next t) :
    x = .ok t ∨ ∃ e, x = .error e ∧ t = errorEntry (encode i) e s := by
  cases x with
  | ok u => exact .inl (by simpa using h)
  | error e => exact .inr ⟨e, rfl, by simpa using h.symm⟩

end Sys2Proof.Machine
end

