-- ==== Sys2Proof/Laws/Units.lean ====
section
/-! SUPPORT. What each command's effect answers: one lemma per command, "it answers t exactly when its checks pass and t
is this state", and what the row computations give byte by byte. Later proofs cite these and unfold no effect. -/

namespace Sys2Proof.Machine

/-! ## Configuration -/

theorem imageFormat_eq_ok (cfg : BitVec 16) (m : ColorModel) :
    imageFormat cfg = .ok m ↔ bitDepth cfg = 8#8 ∧ ColorModel.ofCode (colorModelField cfg).toNat = some m := by
  unfold imageFormat
  split
  · split <;> simp_all
  · simp_all

theorem bytesPerPixel_eq_ok (cfg : BitVec 16) (bpp : Nat) :
    bytesPerPixel cfg = .ok bpp ↔ ∃ m, imageFormat cfg = .ok m ∧ m.bpp = bpp := by
  unfold bytesPerPixel
  cases imageFormat cfg <;> simp [Except.map]

theorem ColorModel.bpp_pos (m : ColorModel) : 1 ≤ m.bpp := by cases m <;> decide

theorem bytesPerPixel_pos {cfg : BitVec 16} {bpp : Nat} (h : bytesPerPixel cfg = .ok bpp) : 1 ≤ bpp := by
  obtain ⟨m, -, rfl⟩ := (bytesPerPixel_eq_ok cfg bpp).1 h
  exact m.bpp_pos

theorem FilterType.ofNumber_eq_some (n : Nat) (t : FilterType) : FilterType.ofNumber n = some t ↔ n = t.number := by
  constructor
  · intro h
    unfold FilterType.ofNumber at h
    split at h <;> simp_all <;> subst h <;> rfl
  · rintro rfl
    cases t <;> rfl

theorem FilterType.ofNumber_eq_none (n : Nat) : FilterType.ofNumber n = Option.none ↔ 5 ≤ n := by
  unfold FilterType.ofNumber
  split <;> simp_all
  omega

theorem FilterType.number_le (t : FilterType) : t.number ≤ 4 := by cases t <;> decide

theorem filterOfTag_eq_ok (tag : Byte) (t : FilterType) : filterOfTag tag = .ok t ↔ tag.toNat = t.number := by
  rw [← FilterType.ofNumber_eq_some]
  unfold filterOfTag
  split <;> simp_all

theorem filterOfField_eq_ok (i : Instr) (ft : BitVec 3) (t : FilterType) :
    filterOfField i ft = .ok t ↔ ft.toNat = t.number := by
  rw [← FilterType.ofNumber_eq_some]
  unfold filterOfField
  split <;> simp_all

theorem checkOperandReg_eq_ok (i : Instr) (rd : BitVec 4) (u : Unit) : checkOperandReg i rd = .ok u ↔ rd.toNat ≤ 4 := by
  unfold checkOperandReg
  split <;> simp_all

theorem rowPrologue_eq_ok (s : State) (bpp : Nat) :
    rowPrologue s = .ok bpp ↔ bytesPerPixel s.imgcfg = .ok bpp ∧ rowBytes s bpp ≤ s.params.maxRowBytes := by
  unfold rowPrologue
  cases bytesPerPixel s.imgcfg with
  | error e => simp
  | ok b =>
    simp only [ok_bind]
    split
    · simp only [reduceCtorEq, Except.ok.injEq, false_iff, not_and]
      rintro rfl
      omega
    · simp only [pure, Except.pure, Except.ok.injEq]
      constructor
      · rintro rfl
        exact ⟨rfl, by omega⟩
      · exact fun h => h.1

/-! ## Row computations -/

theorem length_filterBytes (t : FilterType) (bpp : Nat) (prior r : List Byte) :
    (filterBytes t bpp prior r).length = r.length := by simp [filterBytes]

/-- Byte `x` of a filtered row (41_filter.md R126). -/
theorem getD_filterBytes (t : FilterType) (bpp : Nat) (prior r : List Byte) (x : Nat) (h : x < r.length) :
    (filterBytes t bpp prior r).getD x 0 =
      subPredictor (r.getD x 0) (predictor t (leftOf bpp r x) (aboveOf prior x) (upperLeftOf bpp prior x)) := by
  rw [List.getD_eq_getElem?_getD]
  simp [filterBytes, h]

theorem length_taggedRow (t : FilterType) (bpp : Nat) (prior r : List Byte) :
    (taggedRow t bpp prior r).length = 1 + r.length := by
  simp only [taggedRow, List.length_cons, length_filterBytes]
  omega

theorem length_defilterFrom (t : FilterType) (bpp : Nat) (prior done f : List Byte) :
    (defilterFrom t bpp prior done f).length = done.length + f.length := by
  induction f generalizing done with
  | nil => simp [defilterFrom]
  | cons b f ih =>
    simp only [defilterFrom, ih, List.length_append, List.length_cons, List.length_nil]
    omega

theorem length_defilterBytes (t : FilterType) (bpp : Nat) (prior f : List Byte) :
    (defilterBytes t bpp prior f).length = f.length := by simp [defilterBytes, length_defilterFrom]

/-- The loop never changes a byte it has made. -/
theorem getD_defilterFrom_done (t : FilterType) (bpp : Nat) (prior done f : List Byte) (x : Nat) (h : x < done.length) :
    (defilterFrom t bpp prior done f).getD x 0 = done.getD x 0 := by
  induction f generalizing done with
  | nil => rfl
  | cons b f ih =>
    simp only [defilterFrom]
    rw [ih _ (by simp; omega), List.getD_append _ _ _ _ h]

theorem getD_defilterFrom (t : FilterType) (bpp : Nat) (hb : 1 ≤ bpp) (prior done f : List Byte) (x : Nat)
    (h : done.length ≤ x) (hx : x < done.length + f.length) :
    (defilterFrom t bpp prior done f).getD x 0 =
      addPredictor (f.getD (x - done.length) 0)
        (predictor t (leftOf bpp (defilterFrom t bpp prior done f) x) (aboveOf prior x) (upperLeftOf bpp prior x)) := by
  induction f generalizing done with
  | nil => simp at hx; omega
  | cons b f ih =>
    simp only [List.length_cons] at hx
    rcases Nat.eq_or_lt_of_le h with heq | hlt
    · subst heq
      have hleft : leftOf bpp (defilterFrom t bpp prior done (b :: f)) done.length = leftOf bpp done done.length := by
        unfold leftOf
        split
        · exact getD_defilterFrom_done _ _ _ _ _ _ (by omega)
        · rfl
      rw [hleft, Nat.sub_self, List.getD_cons_zero]
      simp only [defilterFrom]
      rw [getD_defilterFrom_done _ _ _ _ _ _ (by simp)]
      simp [List.getD_eq_getElem?_getD]
    · have e : x - done.length = (x - (done.length + 1)) + 1 := by omega
      simp only [defilterFrom]
      rw [ih _ (by simp; omega) (by simp; omega), e, List.getD_cons_succ]
      simp

/-- Byte `x` of a reconstructed row, by the left neighbour already reconstructed (41_filter.md R125, R121). -/
theorem getD_defilterBytes (t : FilterType) (bpp : Nat) (hb : 1 ≤ bpp) (prior f : List Byte) (x : Nat)
    (hx : x < f.length) :
    (defilterBytes t bpp prior f).getD x 0 =
      addPredictor (f.getD x 0)
        (predictor t (leftOf bpp (defilterBytes t bpp prior f) x) (aboveOf prior x) (upperLeftOf bpp prior x)) := by
  have h := getD_defilterFrom t bpp hb prior [] f x (by simp) (by simpa using hx)
  simpa [defilterBytes] using h

theorem paeth_cases (a b c : Byte) : paeth a b c = a ∨ paeth a b c = b ∨ paeth a b c = c := by
  unfold paeth
  simp only
  split
  · simp
  · split <;> simp

/-- Every predictor is a byte value (41_filter.md R122). -/
theorem predictor_lt (t : FilterType) (a b c : Byte) : predictor t a b c < 256 := by
  cases t
  · exact Nat.zero_lt_succ _
  · exact a.isLt
  · exact b.isLt
  · have := a.isLt
    have := b.isLt
    simp only [predictor]
    omega
  · exact (paeth a b c).isLt

theorem toNat_addPredictor (f : Byte) (p : Nat) : (addPredictor f p).toNat = (f.toNat + p) % 256 := by
  simp [addPredictor]

theorem toNat_subPredictor (r : Byte) (p : Nat) : ((subPredictor r p).toNat : Int) = ((r.toNat : Int) - p) % 256 := by
  simp only [subPredictor, BitVec.toNat_ofInt]
  omega

/-- Adding back what was subtracted (41_filter.md R131). -/
theorem addPredictor_subPredictor (r : Byte) (p : Nat) : addPredictor (subPredictor r p) p = r := by
  apply BitVec.eq_of_toNat_eq
  have h := toNat_subPredictor r p
  have := r.isLt
  rw [toNat_addPredictor]
  omega

theorem bestFilter_cases (bpp : Nat) (prior row : List Byte) :
    bestFilter bpp prior row = .sub ∨ bestFilter bpp prior row = .up ∨ bestFilter bpp prior row = .average ∨
      bestFilter bpp prior row = .paeth := by
  unfold bestFilter
  simp only
  split
  · simp
  · split
    · simp
    · split <;> simp

@[simp] theorem dmemByte_rowDone (t : FilterType) (raw : List Byte) (s : State) (a : Nat) :
    dmemByte (rowDone t raw s) a = dmemByte s a := rfl

@[simp] theorem dmemByte_storeScores (bpp : Nat) (prior row : List Byte) (s : State) (a : Nat) :
    dmemByte (storeScores bpp prior row s) a = dmemByte s a := rfl

/-- PREV after a row command: the raw row, and the old bytes above it (10_state.md R32). -/
theorem prevByte_rowDone (t : FilterType) (raw : List Byte) (s : State) (x : Nat) :
    prevByte (rowDone t raw s) x = if x < raw.length then raw.getD x 0 else prevByte s x := by
  rw [← prevByte_storePrev]
  rfl

/-! ## Pixels -/

theorem unpackFrom_eq_ok (m : ColorModel) (s : State) (row : List Byte) (x k : Nat) (ps : List Rgba) :
    unpackFrom m s row x k = .ok ps ↔
      ps.length = k ∧ ∀ i < k, ∃ p, ps[i]? = some p ∧ unpackPixel m s row (x + i) = .ok p := by
  induction k generalizing x ps with
  | zero => cases ps <;> simp [unpackFrom]
  | succ k ih =>
    simp only [unpackFrom, bind_eq_ok, pure, Except.pure, Except.ok.injEq]
    constructor
    · rintro ⟨p, hp, rest, hrest, rfl⟩
      obtain ⟨hl, hr⟩ := (ih (x + 1) rest).1 hrest
      refine ⟨by simp [hl], fun i hi => ?_⟩
      cases i with
      | zero => exact ⟨p, by simp, hp⟩
      | succ i =>
        obtain ⟨q, hq, hu⟩ := hr i (by omega)
        exact ⟨q, by simpa using hq, by rw [← hu]; congr 1; omega⟩
    · rintro ⟨hl, hr⟩
      cases ps with
      | nil => simp at hl
      | cons p rest =>
        obtain ⟨q, hq, hu⟩ := hr 0 (by omega)
        simp only [List.getElem?_cons_zero, Option.some.injEq] at hq
        subst hq
        refine ⟨p, hu, rest, (ih (x + 1) rest).2 ⟨by simpa using hl, fun i hi => ?_⟩, rfl⟩
        obtain ⟨q, hq, hu⟩ := hr (i + 1) (by omega)
        exact ⟨q, by simpa using hq, by rw [← hu]; congr 1; omega⟩

theorem length_pixelBytes (ps : List Rgba) : (pixelBytes ps).length = 4 * ps.length := by
  induction ps with
  | nil => rfl
  | cons p ps ih =>
    simp only [pixelBytes, List.length_cons, ih]
    omega

/-- The four bytes of pixel `x` of an RGBA row (42_pixel.md R154). -/
theorem getElem?_pixelBytes (ps : List Rgba) (x : Nat) (p : Rgba) (h : ps[x]? = some p) :
    (pixelBytes ps)[4 * x]? = some p.r ∧ (pixelBytes ps)[4 * x + 1]? = some p.g ∧
      (pixelBytes ps)[4 * x + 2]? = some p.b ∧ (pixelBytes ps)[4 * x + 3]? = some p.a := by
  induction ps generalizing x with
  | nil => simp at h
  | cons q ps ih =>
    cases x with
    | zero =>
      simp only [List.getElem?_cons_zero, Option.some.injEq] at h
      subst h
      simp [pixelBytes]
    | succ x =>
      have := ih x (by simpa using h)
      simpa [pixelBytes, Nat.mul_succ, Nat.add_assoc] using this

theorem length_paletteOf (payload : List Byte) (k : Nat) : (paletteOf payload k).length = k := by simp [paletteOf]

theorem getElem?_paletteOf (payload : List Byte) (k i : Nat) (h : i < k) :
    (paletteOf payload k)[i]? =
      some ⟨payload.getD (3 * i) 0, payload.getD (3 * i + 1) 0, payload.getD (3 * i + 2) 0, 255#8⟩ := by
  simp [paletteOf, h]

theorem length_transparentOf (s : State) (alphas : List Byte) (k : Nat) : (transparentOf s alphas k).length = k := by
  simp [transparentOf]

theorem getElem?_transparentOf (s : State) (alphas : List Byte) (k i : Nat) (h : i < k) :
    (transparentOf s alphas k)[i]? = some { palEntry s i with a := alphas.getD i 0 } := by
  simp [transparentOf, h]

/-! ## What each effect answers -/

theorem setloEffect_eq_ok (rd : BitVec 4) (imm16 : BitVec 16) (s t : State) :
    setloEffect rd imm16 s = .ok t ↔ rd.toNat ≤ 4 ∧ t = writeOperand s rd (withLowHalf (readReg s rd) imm16) := by
  simp only [setloEffect, bind_eq_ok, checkOperandReg_eq_ok, pure, Except.pure, Except.ok.injEq]
  exact ⟨fun ⟨_, h, e⟩ => ⟨h, e.symm⟩, fun ⟨h, e⟩ => ⟨(), h, e.symm⟩⟩

theorem sethiEffect_eq_ok (rd : BitVec 4) (imm16 : BitVec 16) (s t : State) :
    sethiEffect rd imm16 s = .ok t ↔ rd.toNat ≤ 4 ∧ t = writeOperand s rd (withHighHalf (readReg s rd) imm16) := by
  simp only [sethiEffect, bind_eq_ok, checkOperandReg_eq_ok, pure, Except.pure, Except.ok.injEq]
  exact ⟨fun ⟨_, h, e⟩ => ⟨h, e.symm⟩, fun ⟨h, e⟩ => ⟨(), h, e.symm⟩⟩

theorem crcUpdEffect_eq_ok (s t : State) :
    crcUpdEffect s = .ok t ↔ s.src.toNat + s.len.toNat ≤ s.params.dmemSize ∧
      t = { s with crcAcc := crcFold s.crcAcc (memRead s s.src.toNat s.len.toNat) } := by
  simp only [crcUpdEffect, bind_eq_ok, checkRange_eq_ok, pure, Except.pure, Except.ok.injEq]
  exact ⟨fun ⟨_, h, e⟩ => ⟨h, e.symm⟩, fun ⟨h, e⟩ => ⟨(), h, e.symm⟩⟩

theorem crcCheckEffect_eq_ok (s t : State) :
    crcCheckEffect s = .ok t ↔ s.src.toNat + 4 ≤ s.params.dmemSize ∧
      be32 (memRead s s.src.toNat 4) = crcVal s ∧ t = s := by
  simp only [crcCheckEffect, bind_eq_ok, checkRange_eq_ok, pure, Except.pure]
  constructor
  · rintro ⟨-, h, h'⟩
    split at h' <;> simp_all
  · rintro ⟨h, h', rfl⟩
    exact ⟨(), h, by simp [h']⟩

theorem crcStoreEffect_eq_ok (s t : State) :
    crcStoreEffect s = .ok t ↔ s.dst.toNat + 4 ≤ s.params.dmemSize ∧
      t = memWrite s s.dst.toNat (beBytes (crcVal s)) := by
  simp only [crcStoreEffect, bind_eq_ok, checkRange_eq_ok, pure, Except.pure, Except.ok.injEq]
  exact ⟨fun ⟨_, h, e⟩ => ⟨h, e.symm⟩, fun ⟨h, e⟩ => ⟨(), h, e.symm⟩⟩

theorem fltDefiltEffect_eq_ok (s u : State) :
    fltDefiltEffect s = .ok u ↔ ∃ bpp t, rowPrologue s = .ok bpp ∧
      s.src.toNat + (1 + rowBytes s bpp) ≤ s.params.dmemSize ∧ s.dst.toNat + rowBytes s bpp ≤ s.params.dmemSize ∧
      (dmemByte s s.src.toNat).toNat = t.number ∧
      u = rowDone t (defilterBytes t bpp (prevRow s (rowBytes s bpp)) (memRead s (s.src.toNat + 1) (rowBytes s bpp)))
        (memWrite s s.dst.toNat
          (defilterBytes t bpp (prevRow s (rowBytes s bpp)) (memRead s (s.src.toNat + 1) (rowBytes s bpp)))) := by
  have hd : ∀ n, (memRead s s.src.toNat (1 + n)).headD 0 = dmemByte s s.src.toNat := by
    intro n
    simp [memRead, Nat.add_comm 1 n, List.range_succ_eq_map]
  have tl : ∀ n, (memRead s s.src.toNat (1 + n)).tail = memRead s (s.src.toNat + 1) n := by
    intro n
    simp [memRead, Nat.add_comm 1 n, List.range_succ_eq_map, Nat.add_assoc, Nat.add_comm 1]
  simp only [fltDefiltEffect, bind_eq_ok, checkRange_eq_ok, filterOfTag_eq_ok, pure, Except.pure, Except.ok.injEq, hd,
    tl]
  constructor
  · rintro ⟨bpp, h1, -, h2, -, h3, t, h4, rfl⟩
    exact ⟨bpp, t, h1, h2, h3, h4, rfl⟩
  · rintro ⟨bpp, t, h1, h2, h3, h4, rfl⟩
    exact ⟨bpp, h1, (), h2, (), h3, t, h4, rfl⟩

theorem fltFiltEffect_eq_ok (ft : BitVec 3) (s u : State) :
    fltFiltEffect ft s = .ok u ↔ ∃ t bpp, ft.toNat = t.number ∧ rowPrologue s = .ok bpp ∧
      s.src.toNat + rowBytes s bpp ≤ s.params.dmemSize ∧ s.dst.toNat + (1 + rowBytes s bpp) ≤ s.params.dmemSize ∧
      u = rowDone t (memRead s s.src.toNat (rowBytes s bpp))
        (memWrite s s.dst.toNat
          (taggedRow t bpp (prevRow s (rowBytes s bpp)) (memRead s s.src.toNat (rowBytes s bpp)))) := by
  simp only [fltFiltEffect, bind_eq_ok, checkRange_eq_ok, filterOfField_eq_ok, pure, Except.pure, Except.ok.injEq]
  constructor
  · rintro ⟨t, h0, bpp, h1, -, h2, -, h3, rfl⟩
    exact ⟨t, bpp, h0, h1, h2, h3, rfl⟩
  · rintro ⟨t, bpp, h0, h1, h2, h3, rfl⟩
    exact ⟨t, h0, bpp, h1, (), h2, (), h3, rfl⟩

theorem fltSelEffect_eq_ok (s u : State) :
    fltSelEffect s = .ok u ↔ ∃ bpp, rowPrologue s = .ok bpp ∧
      s.src.toNat + rowBytes s bpp ≤ s.params.dmemSize ∧ s.dst.toNat + (1 + rowBytes s bpp) ≤ s.params.dmemSize ∧
      u = rowDone (bestFilter bpp (prevRow s (rowBytes s bpp)) (memRead s s.src.toNat (rowBytes s bpp)))
        (memRead s s.src.toNat (rowBytes s bpp))
        (storeScores bpp (prevRow s (rowBytes s bpp)) (memRead s s.src.toNat (rowBytes s bpp))
          (memWrite s s.dst.toNat
            (taggedRow (bestFilter bpp (prevRow s (rowBytes s bpp)) (memRead s s.src.toNat (rowBytes s bpp))) bpp
              (prevRow s (rowBytes s bpp)) (memRead s s.src.toNat (rowBytes s bpp))))) := by
  simp only [fltSelEffect, bind_eq_ok, checkRange_eq_ok, pure, Except.pure, Except.ok.injEq]
  constructor
  · rintro ⟨bpp, h1, -, h2, -, h3, rfl⟩
    exact ⟨bpp, h1, h2, h3, rfl⟩
  · rintro ⟨bpp, h1, h2, h3, rfl⟩
    exact ⟨bpp, h1, (), h2, (), h3, rfl⟩

theorem fltChklenEffect_eq_ok (s t : State) :
    fltChklenEffect s = .ok t ↔ ∃ bpp, bytesPerPixel s.imgcfg = .ok bpp ∧ s.len.toNat % (1 + rowBytes s bpp) = 0 ∧
      t = s := by
  simp only [fltChklenEffect, bind_eq_ok]
  constructor
  · rintro ⟨bpp, h, h'⟩
    refine ⟨bpp, h, ?_⟩
    split at h' <;> simp_all [pure, Except.pure]
  · rintro ⟨bpp, h, h', rfl⟩
    exact ⟨bpp, h, by simp [h', pure, Except.pure]⟩

theorem palLoadEffect_eq_ok (s t : State) :
    palLoadEffect s = .ok t ↔ s.len.toNat % 3 = 0 ∧ s.src.toNat + s.len.toNat ≤ s.params.dmemSize ∧
      t = { storePal s (paletteOf (memRead s s.src.toNat s.len.toNat) (min (s.len.toNat / 3) 256)) with
            palCount := BitVec.ofNat 32 (min (s.len.toNat / 3) 256), palv := true } := by
  unfold palLoadEffect
  split
  · simp [*]
  · rename_i h0
    simp only [bind_eq_ok, checkRange_eq_ok, pure, Except.pure, Except.ok.injEq]
    exact ⟨fun ⟨_, h, e⟩ => ⟨by omega, h, e.symm⟩, fun ⟨_, h, e⟩ => ⟨(), h, e.symm⟩⟩

theorem palTrnsEffect_eq_ok (s t : State) :
    palTrnsEffect s = .ok t ↔ s.src.toNat + s.len.toNat ≤ s.params.dmemSize ∧
      t = if s.palv then
        storePal s (transparentOf s (memRead s s.src.toNat s.len.toNat) (min s.len.toNat s.palCount.toNat)) else s := by
  simp only [palTrnsEffect, bind_eq_ok, checkRange_eq_ok]
  constructor
  · rintro ⟨-, h, h'⟩
    refine ⟨h, ?_⟩
    split at h' <;> simp_all [pure, Except.pure]
  · rintro ⟨h, rfl⟩
    exact ⟨(), h, by split <;> rfl⟩

theorem pxcUnpackEffect_eq_ok (s t : State) :
    pxcUnpackEffect s = .ok t ↔ ∃ m ps, imageFormat s.imgcfg = .ok m ∧
      s.src.toNat + rowBytes s m.bpp ≤ s.params.dmemSize ∧ s.dst.toNat + 4 * s.width.toNat ≤ s.params.dmemSize ∧
      unpackFrom m s (memRead s s.src.toNat (rowBytes s m.bpp)) 0 s.width.toNat = .ok ps ∧
      t = memWrite s s.dst.toNat (pixelBytes ps) := by
  simp only [pxcUnpackEffect, bind_eq_ok, checkRange_eq_ok, pure, Except.pure, Except.ok.injEq]
  constructor
  · rintro ⟨m, h1, -, h2, -, h3, ps, h4, rfl⟩
    exact ⟨m, ps, h1, h2, h3, h4, rfl⟩
  · rintro ⟨m, ps, h1, h2, h3, h4, rfl⟩
    exact ⟨m, h1, (), h2, (), h3, ps, h4, rfl⟩

theorem pxcPackEffect_eq_ok (s t : State) :
    pxcPackEffect s = .ok t ↔ s.src.toNat + 4 * s.width.toNat ≤ s.params.dmemSize ∧
      s.dst.toNat + 4 * s.width.toNat ≤ s.params.dmemSize ∧
      t = memWrite s s.dst.toNat (memRead s s.src.toNat (4 * s.width.toNat)) := by
  simp only [pxcPackEffect, bind_eq_ok, checkRange_eq_ok, pure, Except.pure, Except.ok.injEq]
  exact ⟨fun ⟨_, h, _, h', e⟩ => ⟨h, h', e.symm⟩, fun ⟨h, h', e⟩ => ⟨(), h, (), h', e.symm⟩⟩

/-! ## Every command at once -/

/-- The effect of a command: what its meaning settles. -/
def effectOf (i : Instr) (s : State) : Except Raise State :=
  match i with
  | .nop => .ok s
  | .clrerr => .ok (errorReturn s)
  | .setlo rd imm16 => setloEffect rd imm16 s
  | .sethi rd imm16 => sethiEffect rd imm16 s
  | .crcInit => .ok { s with crcAcc := 0xFFFFFFFF#32 }
  | .crcUpd => crcUpdEffect s
  | .crcUpdb imm8 => .ok { s with crcAcc := crcByte s.crcAcc imm8 }
  | .crcCheck => crcCheckEffect s
  | .crcStore => crcStoreEffect s
  | .fltStart => .ok { clearPrev s with rowCount := 0#32 }
  | .fltDefilt => fltDefiltEffect s
  | .fltFilt ft => fltFiltEffect ft s
  | .fltSel => fltSelEffect s
  | .fltChklen => fltChklenEffect s
  | .palLoad => palLoadEffect s
  | .palTrns => palTrnsEffect s
  | .pxcUnpack => pxcUnpackEffect s
  | .pxcPack => pxcPackEffect s

/-- Every meaning settles its effect. -/
theorem exec_eq_settle (i : Instr) (s : State) : exec i s = settle i s (effectOf i s) := by cases i <;> rfl

/-- Every command that answers a next state answers its effect, or error entry with none of it. -/
theorem exec_cases {i : Instr} {s t : State} (h : exec i s = .next t) :
    effectOf i s = .ok t ∨ ∃ e, effectOf i s = .error e ∧ t = errorEntry (encode i) e s :=
  settle_cases ((exec_eq_settle i s).symm.trans h)

theorem exec_of_ok {i : Instr} {s t : State} (h : effectOf i s = .ok t) : exec i s = .next t := by
  rw [exec_eq_settle, h]
  rfl

theorem exec_of_error {i : Instr} {s : State} {e : Raise} (h : effectOf i s = .error e) :
    exec i s = .next (errorEntry (encode i) e s) := by
  rw [exec_eq_settle, h]
  rfl

/-- What no effect changes: the parameters, the draw number, the queue, ERRCMD and ERRINFO, and but for CLRERR the
latch. -/
theorem effectOf_frame {i : Instr} {s t : State} (h : effectOf i s = .ok t) :
    t.params = s.params ∧ t.drawEpoch = s.drawEpoch ∧ t.cmdq = s.cmdq ∧ t.errCmd = s.errCmd ∧ t.errInfo = s.errInfo ∧
      (i ≠ .clrerr → t.err = s.err ∧ t.errCode = s.errCode) := by
  have hw : ∀ (u : State) (r : BitVec 4) (v : Word), (writeOperand u r v).params = u.params ∧
      (writeOperand u r v).drawEpoch = u.drawEpoch ∧ (writeOperand u r v).cmdq = u.cmdq ∧
      (writeOperand u r v).errCmd = u.errCmd ∧ (writeOperand u r v).errInfo = u.errInfo ∧
      ((writeOperand u r v).err = u.err ∧ (writeOperand u r v).errCode = u.errCode) := by
    intro u r v
    unfold writeOperand
    split <;> simp
  cases i with
  | setlo rd imm16 =>
    obtain ⟨-, rfl⟩ := (setloEffect_eq_ok ..).1 h
    obtain ⟨h1, h2, h3, h4, h5, h6⟩ := hw s rd (withLowHalf (readReg s rd) imm16)
    exact ⟨h1, h2, h3, h4, h5, fun _ => h6⟩
  | sethi rd imm16 =>
    obtain ⟨-, rfl⟩ := (sethiEffect_eq_ok ..).1 h
    obtain ⟨h1, h2, h3, h4, h5, h6⟩ := hw s rd (withHighHalf (readReg s rd) imm16)
    exact ⟨h1, h2, h3, h4, h5, fun _ => h6⟩
  | crcUpd => obtain ⟨-, rfl⟩ := (crcUpdEffect_eq_ok ..).1 h; simp
  | crcCheck => obtain ⟨-, -, rfl⟩ := (crcCheckEffect_eq_ok ..).1 h; simp
  | crcStore => obtain ⟨-, rfl⟩ := (crcStoreEffect_eq_ok ..).1 h; simp
  | fltDefilt => obtain ⟨bpp, ty, -, -, -, -, rfl⟩ := (fltDefiltEffect_eq_ok ..).1 h; simp
  | fltFilt ft => obtain ⟨ty, bpp, -, -, -, -, rfl⟩ := (fltFiltEffect_eq_ok ..).1 h; simp
  | fltSel => obtain ⟨bpp, -, -, -, rfl⟩ := (fltSelEffect_eq_ok ..).1 h; simp
  | fltChklen => obtain ⟨bpp, -, -, rfl⟩ := (fltChklenEffect_eq_ok ..).1 h; simp
  | palLoad => obtain ⟨-, -, rfl⟩ := (palLoadEffect_eq_ok ..).1 h; simp
  | palTrns =>
    obtain ⟨-, rfl⟩ := (palTrnsEffect_eq_ok ..).1 h
    split <;> simp
  | pxcUnpack => obtain ⟨m, ps, -, -, -, -, rfl⟩ := (pxcUnpackEffect_eq_ok ..).1 h; simp
  | pxcPack => obtain ⟨-, -, rfl⟩ := (pxcPackEffect_eq_ok ..).1 h; simp
  | nop | clrerr | crcInit | crcUpdb | fltStart =>
    simp only [effectOf, Except.ok.injEq] at h
    subst h
    simp

/-- The kinds of error the block raises: not the three reserved for host software (60_exceptions.md R202). -/
def ErrorKind.raised : ErrorKind → Bool
  | .formatMismatch => false
  | .compressionFailure => false
  | .decompressionFailure => false
  | _ => true

theorem imageFormat_raises {cfg : BitVec 16} {e : Raise} (h : imageFormat cfg = .error e) : e.kind.raised = true := by
  unfold imageFormat at h
  split at h
  · split at h <;> cases h
    rfl
  · cases h
    rfl

theorem bytesPerPixel_raises {cfg : BitVec 16} {e : Raise} (h : bytesPerPixel cfg = .error e) :
    e.kind.raised = true := by
  unfold bytesPerPixel at h
  cases hf : imageFormat cfg with
  | ok m => simp [hf, Except.map] at h
  | error e' =>
    simp only [hf, Except.map, Except.error.injEq] at h
    exact h ▸ imageFormat_raises hf

theorem checkRange_raises {s : State} {a : Word} {n : Nat} {e : Raise} (h : checkRange s a n = .error e) :
    e.kind.raised = true := by
  unfold checkRange at h
  split at h <;> cases h
  rfl

theorem rowPrologue_raises {s : State} {e : Raise} (h : rowPrologue s = .error e) : e.kind.raised = true := by
  rcases bind_eq_error.1 h with h | ⟨bpp, -, h⟩
  · exact bytesPerPixel_raises h
  · split at h <;> cases h
    rfl

theorem unpackFrom_raises {m : ColorModel} {s : State} {row : List Byte} {x k : Nat} {e : Raise}
    (h : unpackFrom m s row x k = .error e) : e.kind.raised = true := by
  induction k generalizing x with
  | zero => cases h
  | succ k ih =>
    rcases bind_eq_error.1 h with h | ⟨p, -, h⟩
    · cases m <;> simp only [unpackPixel] at h <;> try cases h
      split at h <;> cases h
      rfl
    · rcases bind_eq_error.1 h with h | ⟨rest, -, h⟩
      · exact ih h
      · cases h

/-- Every error a command raises is of a kind the block raises. -/
theorem effectOf_raises {i : Instr} {s : State} {e : Raise} (h : effectOf i s = .error e) : e.kind.raised = true := by
  have reg : ∀ {i : Instr} {rd : BitVec 4}, checkOperandReg i rd = .error e → e.kind.raised = true := by
    intro i rd h
    unfold checkOperandReg at h
    split at h <;> cases h
    rfl
  have field : ∀ {i : Instr} {ft : BitVec 3}, filterOfField i ft = .error e → e.kind.raised = true := by
    intro i ft h
    unfold filterOfField at h
    split at h <;> cases h
    rfl
  have tag : ∀ {b : Byte}, filterOfTag b = .error e → e.kind.raised = true := by
    intro b h
    unfold filterOfTag at h
    split at h <;> cases h
    rfl
  cases i with
  | setlo rd imm16 =>
    simp only [effectOf, setloEffect, bind_eq_error, pure, Except.pure, reduceCtorEq, and_false, exists_false,
      or_false] at h
    exact reg h
  | sethi rd imm16 =>
    simp only [effectOf, sethiEffect, bind_eq_error, pure, Except.pure, reduceCtorEq, and_false, exists_false,
      or_false] at h
    exact reg h
  | crcUpd =>
    simp only [effectOf, crcUpdEffect, bind_eq_error, pure, Except.pure, reduceCtorEq, and_false, exists_false,
      or_false] at h
    exact checkRange_raises h
  | crcStore =>
    simp only [effectOf, crcStoreEffect, bind_eq_error, pure, Except.pure, reduceCtorEq, and_false, exists_false,
      or_false] at h
    exact checkRange_raises h
  | crcCheck =>
    simp only [effectOf, crcCheckEffect, bind_eq_error] at h
    rcases h with h | ⟨_, -, h⟩
    · exact checkRange_raises h
    · split at h <;> cases h
      rfl
  | fltDefilt =>
    simp only [effectOf, fltDefiltEffect, bind_eq_error, pure, Except.pure, reduceCtorEq, and_false, exists_false,
      or_false] at h
    rcases h with h | ⟨_, -, h | ⟨_, -, h | ⟨_, -, h⟩⟩⟩
    · exact rowPrologue_raises h
    · exact checkRange_raises h
    · exact checkRange_raises h
    · exact tag h
  | fltFilt ft =>
    simp only [effectOf, fltFiltEffect, bind_eq_error, pure, Except.pure, reduceCtorEq, and_false, exists_false,
      or_false] at h
    rcases h with h | ⟨_, -, h | ⟨_, -, h | ⟨_, -, h⟩⟩⟩
    · exact field h
    · exact rowPrologue_raises h
    · exact checkRange_raises h
    · exact checkRange_raises h
  | fltSel =>
    simp only [effectOf, fltSelEffect, bind_eq_error, pure, Except.pure, reduceCtorEq, and_false, exists_false,
      or_false] at h
    rcases h with h | ⟨_, -, h | ⟨_, -, h⟩⟩
    · exact rowPrologue_raises h
    · exact checkRange_raises h
    · exact checkRange_raises h
  | fltChklen =>
    simp only [effectOf, fltChklenEffect, bind_eq_error] at h
    rcases h with h | ⟨_, -, h⟩
    · exact bytesPerPixel_raises h
    · split at h <;> cases h
      rfl
  | palLoad =>
    simp only [effectOf, palLoadEffect] at h
    split at h
    · cases h
      rfl
    · simp only [bind_eq_error, pure, Except.pure, reduceCtorEq, and_false, exists_false, or_false] at h
      exact checkRange_raises h
  | palTrns =>
    simp only [effectOf, palTrnsEffect, bind_eq_error] at h
    rcases h with h | ⟨_, -, h⟩
    · exact checkRange_raises h
    · split at h <;> cases h
  | pxcUnpack =>
    simp only [effectOf, pxcUnpackEffect, bind_eq_error, pure, Except.pure, reduceCtorEq, and_false, exists_false,
      or_false] at h
    rcases h with h | ⟨_, -, h | ⟨_, -, h | ⟨_, -, h⟩⟩⟩
    · exact imageFormat_raises h
    · exact checkRange_raises h
    · exact checkRange_raises h
    · exact unpackFrom_raises h
  | pxcPack =>
    simp only [effectOf, pxcPackEffect, bind_eq_error, pure, Except.pure, reduceCtorEq, and_false, exists_false,
      or_false] at h
    rcases h with h | ⟨_, -, h⟩
    · exact checkRange_raises h
    · exact checkRange_raises h
  | nop | clrerr | crcInit | crcUpdb | fltStart => cases h

/-- The codes the block writes are those of the kinds it raises (60_exceptions.md R202). -/
theorem code_mem_writtenCodes {k : ErrorKind} (h : k.raised = true) : k.code ∈ writtenCodes := by
  cases k <;> first | decide | cases h

/-! ## The register file -/

/-- Reading an operand register just written: IMGCFG keeps 16 bits (10_state.md R26). -/
theorem readReg_writeOperand_same (s : State) (rd : BitVec 4) (v : Word) (h : rd.toNat ≤ 4) :
    readReg (writeOperand s rd v) rd = if rd.toNat = 4 then (v.setWidth 16).setWidth 32 else v := by
  have : rd.toNat = 0 ∨ rd.toNat = 1 ∨ rd.toNat = 2 ∨ rd.toNat = 3 ∨ rd.toNat = 4 := by omega
  rcases this with h | h | h | h | h <;> simp [readReg, writeOperand, h]

/-- No other register changes. -/
theorem readReg_writeOperand_other (s : State) (rd i : BitVec 4) (v : Word) (h : i ≠ rd) :
    readReg (writeOperand s rd v) i = readReg s i := by
  have h' : i.toNat ≠ rd.toNat := fun e => h (BitVec.eq_of_toNat_eq e)
  unfold writeOperand
  split <;> unfold readReg <;> split <;> first | rfl | omega

/-! ## The sequencer's step -/

/-- One inversion for the step: idle, discard, error entry for an illegal word, or a command on the popped state. -/
theorem step_cases (s : State) :
    (s.cmdq = [] ∧ step s = .next s) ∨
      ∃ w rest, s.cmdq = w :: rest ∧
        ((discards w s = true ∧ step s = .next (popCmdq s)) ∨
          (discards w s = false ∧ (∃ e, decode w = .error e) ∧
            step s = .next (errorEntry w (illegalCommand w) (popCmdq s))) ∨
          (discards w s = false ∧ ∃ i, decode w = .ok i ∧ step s = exec i (popCmdq s))) := by
  have hpop : ∀ w, discards w (popCmdq s) = discards w s := fun _ => rfl
  cases hq : s.cmdq with
  | nil => exact .inl ⟨rfl, by simp [step, sequencerStep, hq]⟩
  | cons w rest =>
    refine .inr ⟨w, rest, rfl, ?_⟩
    cases hd : discards w s with
    | true => exact .inl ⟨rfl, by simp [step, sequencerStep, hq, runWord, hpop, hd]⟩
    | false =>
      refine .inr ?_
      cases he : decode w with
      | error e => exact .inl ⟨rfl, ⟨e, rfl⟩, by simp [step, sequencerStep, hq, runWord, hpop, hd, he]⟩
      | ok i => exact .inr ⟨rfl, i, rfl, by simp [step, sequencerStep, hq, runWord, hpop, hd, he]⟩

end Sys2Proof.Machine
end

