-- ==== Sys2Proof/Laws/Claims.lean ====
section
/-! SUPPORT. From the statements' vocabulary (register numbers, natural numbers, color model numbers) to the model's
operations, so that a proof of a statement starts from the lemmas of Units.lean. -/

namespace Sys2Proof.Claims

open Sys2Proof.Machine

/-! ## Registers -/

theorem reg_src (s : State) : reg s 0 = s.src.toNat := rfl
theorem reg_dst (s : State) : reg s 1 = s.dst.toNat := rfl
theorem reg_len (s : State) : reg s 2 = s.len.toNat := rfl
theorem reg_width (s : State) : reg s 3 = s.width.toNat := rfl
theorem reg_crcAcc (s : State) : reg s 5 = s.crcAcc.toNat := rfl
theorem reg_crcVal (s : State) : reg s 6 = (crcVal s).toNat := rfl
theorem reg_palCount (s : State) : reg s 9 = s.palCount.toNat := rfl

theorem reg_imgcfg (s : State) : reg s 4 = s.imgcfg.toNat := by
  show (s.imgcfg.setWidth 32).toNat = _
  rw [BitVec.toNat_setWidth]
  have := s.imgcfg.isLt
  omega

/-! ## Image configuration -/

theorem toNat_bitDepth (cfg : BitVec 16) : (bitDepth cfg).toNat = cfg.toNat % 256 := by
  simp [bitDepth, BitVec.extractLsb'_toNat]

theorem toNat_colorModelField (cfg : BitVec 16) : (colorModelField cfg).toNat = cfg.toNat / 256 := by
  have := cfg.isLt
  simp [colorModelField, BitVec.extractLsb'_toNat, Nat.shiftRight_eq_div_pow]
  omega

/-- The number of a color model (10_state.md R26). -/
def modelNumber : ColorModel → Nat
  | .grayscale => 0
  | .rgb => 2
  | .palette => 3
  | .grayscaleAlpha => 4
  | .rgbAlpha => 6

theorem ofCode_eq_some (n : Nat) (m : ColorModel) : ColorModel.ofCode n = some m ↔ n = modelNumber m := by
  constructor
  · intro h
    unfold ColorModel.ofCode at h
    split at h <;> cases h <;> rfl
  · rintro rfl
    cases m <;> rfl

theorem ofCode_eq_none (n : Nat) : ColorModel.ofCode n = none ↔ n ∉ [0, 2, 3, 4, 6] := by
  unfold ColorModel.ofCode
  split <;> simp_all

/-- The configuration check passes exactly on bit depth 8 and a color model's number. -/
theorem imageFormat_eq_ok_iff (s : State) (m : ColorModel) :
    imageFormat s.imgcfg = .ok m ↔ reg s 4 % 256 = 8 ∧ reg s 4 / 256 = modelNumber m := by
  rw [imageFormat_eq_ok, ofCode_eq_some, toNat_colorModelField, ← BitVec.toNat_inj, toNat_bitDepth, reg_imgcfg]
  rfl

theorem bppOf_eq {s : State} {m : ColorModel} (h : reg s 4 / 256 = modelNumber m) : bppOf s = m.bpp := by
  unfold bppOf
  rw [h]
  cases m <;> rfl

/-- A configured state names one color model. -/
theorem Configured.model {s : State} {cm bpp : Nat} (h : Configured s cm bpp) :
    ∃ m, imageFormat s.imgcfg = .ok m ∧ modelNumber m = cm ∧ m.bpp = bpp := by
  obtain ⟨h8, hcm, htable⟩ := h
  simp only [bppTable, List.mem_cons, List.not_mem_nil, or_false, Prod.mk.injEq] at htable
  have model : ∀ m : ColorModel, modelNumber m = cm ∧ m.bpp = bpp →
      ∃ m, imageFormat s.imgcfg = .ok m ∧ modelNumber m = cm ∧ m.bpp = bpp :=
    fun m hm => ⟨m, (imageFormat_eq_ok_iff s m).2 ⟨h8, hcm.trans hm.1.symm⟩, hm⟩
  rcases htable with ⟨rfl, rfl⟩ | ⟨rfl, rfl⟩ | ⟨rfl, rfl⟩ | ⟨rfl, rfl⟩ | ⟨rfl, rfl⟩
  · exact model .grayscale ⟨rfl, rfl⟩
  · exact model .rgb ⟨rfl, rfl⟩
  · exact model .palette ⟨rfl, rfl⟩
  · exact model .grayscaleAlpha ⟨rfl, rfl⟩
  · exact model .rgbAlpha ⟨rfl, rfl⟩

theorem Configured.bytesPerPixel {s : State} {cm bpp : Nat} (h : Configured s cm bpp) :
    Machine.bytesPerPixel s.imgcfg = .ok bpp := by
  obtain ⟨m, hm, -, hb⟩ := h.model
  exact (bytesPerPixel_eq_ok _ _).2 ⟨m, hm, hb⟩

/-- The row prologue passes on a configured row that fits PREV. -/
theorem Configured.rowPrologue {s : State} {cm bpp : Nat} (h : Configured s cm bpp)
    (hn : reg s 3 * bpp ≤ s.params.maxRowBytes) : Machine.rowPrologue s = .ok bpp :=
  (rowPrologue_eq_ok s bpp).2 ⟨h.bytesPerPixel, hn⟩

/-- Where the row prologue passes, ROWB is `rowLen`. -/
theorem rowLen_eq {s : State} {bpp : Nat} (h : Machine.bytesPerPixel s.imgcfg = .ok bpp) : rowLen s = rowBytes s bpp := by
  obtain ⟨m, hm, rfl⟩ := (bytesPerPixel_eq_ok _ _).1 h
  have := bppOf_eq ((imageFormat_eq_ok_iff s m).1 hm).2
  simp only [rowLen, this, reg_width, rowBytes]

/-! ## Filters -/

theorem paethOf_toNat (a b c : Byte) : paethOf a.toNat b.toNat c.toNat = (paeth a b c).toNat := by
  simp only [paethOf, paeth]
  split
  · rfl
  · split <;> rfl

/-- The statements' predictor is the model's, on bytes. -/
theorem pred_toNat (t : FilterType) (a b c : Byte) : pred t.number a.toNat b.toNat c.toNat = predictor t a b c := by
  cases t
  · rfl
  · rfl
  · rfl
  · rfl
  · exact paethOf_toNat a b c

/-- The statements' predictor at a byte of a row is the model's over the same raw bytes and PREV. -/
theorem predAt_eq (s : State) (bpp n : Nat) (t : FilterType) (raw : Nat → Nat) (row : List Byte) (x : Nat)
    (hb : 1 ≤ bpp) (hx : x < n) (hraw : ∀ y < x, raw y = (row.getD y 0).toNat) :
    predAt s bpp t.number raw x =
      predictor t (leftOf bpp row x) (aboveOf (prevRow s n) x) (upperLeftOf bpp (prevRow s n) x) := by
  rw [← pred_toNat]
  unfold predAt leftOf aboveOf upperLeftOf
  rw [getD_prevRow s n x hx]
  split
  · rw [hraw _ (by omega), getD_prevRow s n (x - bpp) (by omega)]
    rfl
  · rfl

/-- A filtered byte, as the statements write it, is the model's. -/
theorem filtered_eq (s : State) (bpp n : Nat) (t : FilterType) (x : Nat) (hb : 1 ≤ bpp) (hx : x < n) :
    filtered s bpp t.number x =
      (((filterBytes t bpp (prevRow s n) (memRead s s.src.toNat n)).getD x 0).toNat : Int) := by
  have hrow : x < (memRead s s.src.toNat n).length := by simpa using hx
  rw [getD_filterBytes _ _ _ _ _ hrow, toNat_subPredictor, filtered,
    predAt_eq s bpp n t _ (memRead s s.src.toNat n) x hb hx, getD_memRead _ _ _ _ hx]
  · rfl
  · intro y hy
    rw [getD_memRead _ _ _ _ (by omega)]
    rfl

/-- The score as the statements write it is the model's. -/
theorem score_eq_sum (f : List Byte) :
    score f = ((List.range (f.length - 1)).map fun i =>
      (((f.getD (i + 1) 0).toNat : Int) - (f.getD i 0).toNat).natAbs).sum := by
  induction f with
  | nil => rfl
  | cons a f ih =>
    cases f with
    | nil => rfl
    | cons b f =>
      rw [score, ih]
      simp only [List.length_cons, Nat.add_sub_cancel]
      rw [List.range_succ_eq_map, List.map_cons, List.sum_cons, List.map_map]
      rfl

theorem scoreOf_eq (s : State) (bpp n : Nat) (t : FilterType) (hb : 1 ≤ bpp) :
    scoreOf s bpp n t.number = score (filterBytes t bpp (prevRow s n) (memRead s s.src.toNat n)) := by
  rw [score_eq_sum, length_filterBytes, length_memRead, scoreOf]
  congr 1
  apply List.map_congr_left
  intro i hi
  have hi : i < n - 1 := List.mem_range.1 hi
  rw [filtered_eq s bpp n t (i + 1) hb (by omega), filtered_eq s bpp n t i hb (by omega)]

/-! ## Big-endian values -/

theorem be32At_eq (s : State) (a : Nat) : be32At s a = (be32 (memRead s a 4)).toNat := by
  rw [toNat_be32, getD_memRead _ _ _ _ (by omega), getD_memRead _ _ _ _ (by omega), getD_memRead _ _ _ _ (by omega),
    getD_memRead _ _ _ _ (by omega)]
  rfl

/-! ## How a command ends -/

/-- A command whose checks fail ends in error entry (60_exceptions.md R205). -/
theorem entersError_of_raise {i : Instr} {s : State} {e : Raise} (h : effectOf i s = .error e) :
    EntersError i s (errorEntry (encode i) e s) :=
  ⟨e.kind.code, code_mem_writtenCodes (effectOf_raises h), e.info, rfl⟩

/-- One inversion for a command, in the statements' words: its effect, or error entry. -/
theorem exec_ends {i : Instr} {s t : State} (h : exec i s = .next t) : effectOf i s = .ok t ∨ EntersError i s t := by
  rcases exec_cases h with h | ⟨e, he, rfl⟩
  · exact .inl h
  · exact .inr (entersError_of_raise he)

end Sys2Proof.Claims
end

