-- ==== Sys2Proof/Laws/Decode.lean ====
section
/-! SUPPORT. The fields and the encoded words as numbers, and what each format's decoder answers. -/

namespace Sys2Proof

/-! ## Fields -/

theorem toNat_opField (w : Word) : (opField w).toNat = w.toNat / 2 ^ 24 := by
  have := w.isLt
  simp [opField, BitVec.extractLsb'_toNat, Nat.shiftRight_eq_div_pow]
  omega

theorem toNat_rdField (w : Word) : (rdField w).toNat = w.toNat / 2 ^ 16 % 16 := by
  simp [rdField, BitVec.extractLsb'_toNat, Nat.shiftRight_eq_div_pow]

theorem toNat_imm16Field (w : Word) : (imm16Field w).toNat = w.toNat % 2 ^ 16 := by
  simp [imm16Field, BitVec.extractLsb'_toNat]

theorem toNat_imm8Field (w : Word) : (imm8Field w).toNat = w.toNat % 2 ^ 8 := by
  simp [imm8Field, BitVec.extractLsb'_toNat]

theorem toNat_ftField (w : Word) : (ftField w).toNat = w.toNat % 8 := by
  simp [ftField, BitVec.extractLsb'_toNat]

/-! ## Encoded words -/

theorem toNat_append_mul {n m : Nat} (x : BitVec n) (y : BitVec m) : (x ++ y).toNat = 2 ^ m * x.toNat + y.toNat := by
  rw [BitVec.toNat_append, ← Nat.shiftLeft_add_eq_or_of_lt y.isLt, Nat.shiftLeft_eq, Nat.mul_comm]

theorem toNat_encodeZ (op : BitVec 8) : (encodeZ op).toNat = 2 ^ 24 * op.toNat := by
  show ((op ++ 0#24 : BitVec (8 + 24))).toNat = _
  rw [toNat_append_mul, BitVec.toNat_ofNat]
  omega

theorem toNat_encodeS (op : BitVec 8) (rd : BitVec 4) (imm16 : BitVec 16) :
    (encodeS op rd imm16).toNat = 2 ^ 24 * op.toNat + 2 ^ 16 * rd.toNat + imm16.toNat := by
  show ((op ++ 0#4 ++ rd ++ imm16 : BitVec (8 + 4 + 4 + 16))).toNat = _
  simp only [toNat_append_mul, BitVec.toNat_ofNat]
  omega

theorem toNat_encodeB (op : BitVec 8) (imm8 : Byte) : (encodeB op imm8).toNat = 2 ^ 24 * op.toNat + imm8.toNat := by
  show ((op ++ 0#16 ++ imm8 : BitVec (8 + 16 + 8))).toNat = _
  simp only [toNat_append_mul, BitVec.toNat_ofNat]
  omega

theorem toNat_encodeF (op : BitVec 8) (ft : BitVec 3) : (encodeF op ft).toNat = 2 ^ 24 * op.toNat + ft.toNat := by
  show ((op ++ 0#21 ++ ft : BitVec (8 + 21 + 3))).toNat = _
  simp only [toNat_append_mul, BitVec.toNat_ofNat]
  omega

/-! ## What each format's decoder answers -/

theorem decodeZ_eq_ok (i j : Instr) (w : Word) : decodeZ i w = .ok j ↔ w.toNat % 2 ^ 24 = 0 ∧ j = i := by
  have h : w.extractLsb' 0 24 = 0#24 ↔ w.toNat % 2 ^ 24 = 0 := by
    rw [← BitVec.toNat_inj]
    simp [BitVec.extractLsb'_toNat]
  simp only [decodeZ, h]
  split <;> simp_all [eq_comm]

theorem decodeS_eq_ok (mk : BitVec 4 → BitVec 16 → Instr) (j : Instr) (w : Word) :
    decodeS mk w = .ok j ↔ w.toNat / 2 ^ 20 % 16 = 0 ∧ (rdField w).toNat ≤ 4 ∧ j = mk (rdField w) (imm16Field w) := by
  have h : w.extractLsb' 20 4 = 0#4 ↔ w.toNat / 2 ^ 20 % 16 = 0 := by
    rw [← BitVec.toNat_inj]
    simp [BitVec.extractLsb'_toNat, Nat.shiftRight_eq_div_pow]
  simp only [decodeS, h]
  split
  · split <;> simp_all [eq_comm]
  · simp_all

theorem decodeB_eq_ok (mk : Byte → Instr) (j : Instr) (w : Word) :
    decodeB mk w = .ok j ↔ w.toNat / 2 ^ 8 % 2 ^ 16 = 0 ∧ j = mk (imm8Field w) := by
  have h : w.extractLsb' 8 16 = 0#16 ↔ w.toNat / 2 ^ 8 % 2 ^ 16 = 0 := by
    rw [← BitVec.toNat_inj]
    simp [BitVec.extractLsb'_toNat, Nat.shiftRight_eq_div_pow]
  simp only [decodeB, h]
  split <;> simp_all [eq_comm]

theorem decodeF_eq_ok (mk : BitVec 3 → Instr) (j : Instr) (w : Word) :
    decodeF mk w = .ok j ↔ w.toNat / 2 ^ 3 % 2 ^ 21 = 0 ∧ (ftField w).toNat ≤ 4 ∧ j = mk (ftField w) := by
  have h : w.extractLsb' 3 21 = 0#21 ↔ w.toNat / 2 ^ 3 % 2 ^ 21 = 0 := by
    rw [← BitVec.toNat_inj]
    simp [BitVec.extractLsb'_toNat, Nat.shiftRight_eq_div_pow]
  simp only [decodeF, h]
  split
  · split <;> simp_all [eq_comm]
  · simp_all

end Sys2Proof
end

