-- ==== Sys2Proof/Laws/PerInstr.lean ====
section
/-! SUPPORT. Statements made per command: the word of every command has the fixed bits of its row of
spec/opcode_table.json. -/

namespace Sys2Proof.Laws

/-- The mask and the match value of a command's row of spec/opcode_table.json. -/
def tableRow : Instr → Word × Word
  | .nop => (0xFFFFFFFF#32, 0x00000000#32)
  | .clrerr => (0xFFFFFFFF#32, 0x01000000#32)
  | .setlo _ _ => (0xFFF00000#32, 0x02000000#32)
  | .sethi _ _ => (0xFFF00000#32, 0x03000000#32)
  | .crcInit => (0xFFFFFFFF#32, 0x10000000#32)
  | .crcUpd => (0xFFFFFFFF#32, 0x11000000#32)
  | .crcUpdb _ => (0xFFFFFF00#32, 0x12000000#32)
  | .crcCheck => (0xFFFFFFFF#32, 0x13000000#32)
  | .crcStore => (0xFFFFFFFF#32, 0x14000000#32)
  | .fltStart => (0xFFFFFFFF#32, 0x20000000#32)
  | .fltDefilt => (0xFFFFFFFF#32, 0x21000000#32)
  | .fltFilt _ => (0xFFFFFFF8#32, 0x22000000#32)
  | .fltSel => (0xFFFFFFFF#32, 0x23000000#32)
  | .fltChklen => (0xFFFFFFFF#32, 0x24000000#32)
  | .palLoad => (0xFFFFFFFF#32, 0x30000000#32)
  | .palTrns => (0xFFFFFFFF#32, 0x31000000#32)
  | .pxcUnpack => (0xFFFFFFFF#32, 0x32000000#32)
  | .pxcPack => (0xFFFFFFFF#32, 0x33000000#32)

/-- The bits its row fixes have the row's value in the encoded word. -/
def EncodingMatch.Statement (i : Instr) : Prop := encode i &&& (tableRow i).1 = (tableRow i).2

namespace EncodingMatch

theorem nop : Statement .nop := rfl

theorem clrerr : Statement .clrerr := rfl

theorem setlo (rd : BitVec 4) (imm16 : BitVec 16) : Statement (.setlo rd imm16) := by
  apply BitVec.eq_of_getLsbD_eq
  intro i hi
  simp only [encode, encodeS, tableRow, BitVec.getLsbD_and, BitVec.getLsbD_append]
  interval_cases i <;> simp

theorem sethi (rd : BitVec 4) (imm16 : BitVec 16) : Statement (.sethi rd imm16) := by
  apply BitVec.eq_of_getLsbD_eq
  intro i hi
  simp only [encode, encodeS, tableRow, BitVec.getLsbD_and, BitVec.getLsbD_append]
  interval_cases i <;> simp

theorem crcInit : Statement .crcInit := rfl

theorem crcUpd : Statement .crcUpd := rfl

theorem crcUpdb (imm8 : Byte) : Statement (.crcUpdb imm8) := by
  apply BitVec.eq_of_getLsbD_eq
  intro i hi
  simp only [encode, encodeB, tableRow, BitVec.getLsbD_and, BitVec.getLsbD_append]
  interval_cases i <;> simp

theorem crcCheck : Statement .crcCheck := rfl

theorem crcStore : Statement .crcStore := rfl

theorem fltStart : Statement .fltStart := rfl

theorem fltDefilt : Statement .fltDefilt := rfl

theorem fltFilt (ft : BitVec 3) : Statement (.fltFilt ft) := by
  apply BitVec.eq_of_getLsbD_eq
  intro i hi
  simp only [encode, encodeF, tableRow, BitVec.getLsbD_and, BitVec.getLsbD_append]
  interval_cases i <;> simp

theorem fltSel : Statement .fltSel := rfl

theorem fltChklen : Statement .fltChklen := rfl

theorem palLoad : Statement .palLoad := rfl

theorem palTrns : Statement .palTrns := rfl

theorem pxcUnpack : Statement .pxcUnpack := rfl

theorem pxcPack : Statement .pxcPack := rfl

end EncodingMatch

end Sys2Proof.Laws
end

