-- ==== Sys2Proof/Tests/Slice0.lean ====
section
/-! SUPPORT. Tests. Expected results are the spec's: the encodings of 30_encoding.md R71 to R76 and the vectors of
95_test_vectors.md, named in each comment. Then one witness per statement that has hypotheses. -/

namespace Sys2Proof.Tests

open Sys2Proof.Machine Sys2Proof.Claims

/-! ## Helpers -/

/-- The outcome is a next state of which `p` holds. -/
def next (o : Host.Outcome State Fault Refusal) (p : State → Bool) : Bool :=
  match o with
  | .next t => p t
  | _ => false

/-- After reset, the bytes `bytes` in DMEM from address `a`. -/
def holding (a : Nat) (bytes : List Byte) : State := memWrite State.reset a bytes

/-- A configured row: IMGCFG, SRC 0, DST 0x10, WIDTH, DMEM from 0, PREV from 0 (the conventions of
95_test_vectors.md). -/
def rowState (cfg : BitVec 16) (width : Word) (bytes prev : List Byte) : State :=
  { storePrev (holding 0 bytes) prev with imgcfg := cfg, width := width, dst := 0x10#32 }

/-- The error latch: STATUS, ERRCMD, ERRINFO. -/
def latch (t : State) : Word × Word × Word := (statusWord t, t.errCmd, t.errInfo)

/-! ## WellFormed: each check refuses an ill-formed term -/

theorem test_wf_setlo : (Instr.setlo 5#4 0#16).wellFormed = false ∧ (Instr.setlo 4#4 0#16).wellFormed = true := by
  decide

theorem test_wf_sethi : (Instr.sethi 15#4 1#16).wellFormed = false ∧ (Instr.sethi 0#4 1#16).wellFormed = true := by
  decide

theorem test_wf_fltFilt : (Instr.fltFilt 5#3).wellFormed = false ∧ (Instr.fltFilt 4#3).wellFormed = true := by decide

/-! ## Decoding: words written bit by bit from the formats (30_encoding.md R71 to R75) -/

theorem test_decode_z :
    decode 0b00000000000000000000000000000000#32 = .ok .nop ∧
      decode 0b00000001000000000000000000000000#32 = .ok .clrerr ∧
      decode 0b00010000000000000000000000000000#32 = .ok .crcInit ∧
      decode 0b00010001000000000000000000000000#32 = .ok .crcUpd ∧
      decode 0b00010011000000000000000000000000#32 = .ok .crcCheck ∧
      decode 0b00010100000000000000000000000000#32 = .ok .crcStore ∧
      decode 0b00100000000000000000000000000000#32 = .ok .fltStart ∧
      decode 0b00100001000000000000000000000000#32 = .ok .fltDefilt ∧
      decode 0b00100011000000000000000000000000#32 = .ok .fltSel ∧
      decode 0b00100100000000000000000000000000#32 = .ok .fltChklen ∧
      decode 0b00110000000000000000000000000000#32 = .ok .palLoad ∧
      decode 0b00110001000000000000000000000000#32 = .ok .palTrns ∧
      decode 0b00110010000000000000000000000000#32 = .ok .pxcUnpack ∧
      decode 0b00110011000000000000000000000000#32 = .ok .pxcPack := by decide

/-- OP, 0000, RD, IMM16; the words of V-SEQ-1 and V-SEQ-2 among them. -/
theorem test_decode_s :
    decode 0b00000010000000000000000010101011#32 = .ok (.setlo 0#4 0x00AB#16) ∧
      decode 0b00000010000001000001001000110100#32 = .ok (.setlo 4#4 0x1234#16) ∧
      decode 0b00000011000000100000000000000001#32 = .ok (.sethi 2#4 0x0001#16) := by decide

/-- OP, 16 zeros, IMM8; OP, 21 zeros, FT. -/
theorem test_decode_bf :
    decode 0b00010010000000000000000001100001#32 = .ok (.crcUpdb 0x61#8) ∧
      decode 0b00100010000000000000000000000100#32 = .ok (.fltFilt 4#3) := by decide

/-- R76's four items; the words of V-SEQ-4, 5, 6, 8, 10, V-CRC-12, 13 and V-FLT-10. -/
theorem test_decode_illegal :
    decode 0x04000000#32 = .error .unassignedOp ∧ decode 0xFF000000#32 = .error .unassignedOp ∧
      decode 0x00000001#32 = .error .nonzeroReserved ∧ decode 0x01000001#32 = .error .nonzeroReserved ∧
      decode 0x10000001#32 = .error .nonzeroReserved ∧ decode 0x12000100#32 = .error .nonzeroReserved ∧
      decode 0x02100000#32 = .error .nonzeroReserved ∧ decode 0x22000008#32 = .error .nonzeroReserved ∧
      decode 0x22000005#32 = .error .filterTypeOutOfRange ∧ decode 0x02050000#32 = .error .registerOutOfRange ∧
      decode 0x030F0001#32 = .error .registerOutOfRange := by decide

theorem test_decodeTableWord :
    decodeTableWord 32 0x22000003 = some (.fltFilt 3#3) ∧ decodeTableWord 32 0x04000000 = none := by decide

/-! ## Sequencer -/

/-- V-SEQ-7. -/
theorem test_nop : step (State.reset.withFetchWord 32 0x00000000) = .next State.reset := rfl

/-- 43_sequencer.md R181's example, and "ERRCMD and ERRINFO keep the last error's values". -/
theorem test_clrerr :
    next (execClrerr { State.reset with err := true, errCode := 0x06#8, errCmd := 0x21000000#32, errInfo := 5#32 })
      (fun t => decide (latch t = (0x00000000#32, 0x21000000#32, 5#32))) = true := by decide

/-- V-SEQ-1. -/
theorem test_setlo :
    next (execSetlo 0#4 0x00AB#16 { State.reset with src := 0x12345678#32 }) (fun t => decide (t.src = 0x123400AB#32)) =
      true := by decide

/-- V-SEQ-4: `setlo` with RD = 5, as a word at CMDQ's head. -/
theorem test_setlo_illegal :
    next (step (State.reset.withFetchWord 32 0x02050000))
      (fun t => decide (latch t = (0x00002001#32, 0x02050000#32, 0x02050000#32))) = true := by decide

/-- V-SEQ-2. -/
theorem test_sethi :
    next (execSethi 2#4 0x0001#16 { State.reset with len := 0x0000FFFF#32 }) (fun t => decide (t.len = 0x0001FFFF#32)) =
      true := by decide

/-- V-SEQ-3: IMGCFG[31:16] read 0. -/
theorem test_sethi_imgcfg :
    next (execSethi 4#4 0xFFFF#16 { State.reset with imgcfg := 0x1234#16 })
      (fun t => decide (readReg t 4#4 = 0x00001234#32)) = true := by decide

/-- V-SEQ-11: in the error state the illegal 0x01000001 is discarded and raises nothing. -/
theorem test_error_state_discards :
    next (step { State.reset with err := true, errCode := 0x20#8, errCmd := 0x04000000#32, cmdq := [0x01000001#32] })
      (fun t => decide (latch t = (0x00002001#32, 0x04000000#32, 0x00000000#32))) = true := by decide

/-! ## CRC unit -/

/-- V-CRC-1. -/
theorem test_crcInit :
    next (execCrcInit { State.reset with crcAcc := 0x12345678#32 })
      (fun t => decide (t.crcAcc = 0xFFFFFFFF#32 ∧ crcVal t = 0x00000000#32)) = true := by decide

/-- V-CRC-2: "123456789". -/
theorem test_crcUpd :
    next (execCrcUpd
        { holding 0x40 [0x31#8, 0x32#8, 0x33#8, 0x34#8, 0x35#8, 0x36#8, 0x37#8, 0x38#8, 0x39#8] with
          src := 0x40#32, len := 9#32 })
      (fun t => decide (t.crcAcc = 0x340BC6D9#32 ∧ crcVal t = 0xCBF43926#32)) = true := by decide +kernel

/-- V-CRC-11: the sum is exact, with no wrap to 0. -/
theorem test_crcUpd_range :
    next (execCrcUpd { State.reset with src := 0xFFFFFFFF#32, len := 1#32 })
      (fun t => decide (latch t = (0x00002101#32, 0x11000000#32, 0xFFFFFFFF#32))) = true := by decide

/-- V-CRC-5. -/
theorem test_crcUpdb :
    next (execCrcUpdb 0x00#8 State.reset) (fun t => decide (t.crcAcc = 0x2DFD1072#32 ∧ crcVal t = 0xD202EF8D#32)) =
      true := by decide

/-- V-CRC-6a: IEND's CRC. -/
theorem test_crcCheck_equal :
    next (execCrcCheck
        { holding 0x80 [0xAE#8, 0x42#8, 0x60#8, 0x82#8] with src := 0x80#32, crcAcc := 0x51BD9F7D#32 })
      (fun t => decide (statusWord t = 0#32 ∧ t.crcAcc = 0x51BD9F7D#32)) = true := by decide

/-- V-CRC-6b. -/
theorem test_crcCheck_differs :
    next (execCrcCheck
        { holding 0x80 [0xAE#8, 0x42#8, 0x60#8, 0x83#8] with src := 0x80#32, crcAcc := 0x51BD9F7D#32 })
      (fun t => decide (latch t = (0x00000201#32, 0x13000000#32, 0xAE426083#32))) = true := by decide

/-- V-CRC-14. -/
theorem test_crcStore :
    next (execCrcStore { State.reset with dst := 0x100#32, crcAcc := 0x51BD9F7D#32 })
      (fun t => decide (memRead t 0x100 4 = [0xAE#8, 0x42#8, 0x60#8, 0x82#8])) = true := by decide

/-- V-CRC-9b, and V-CRC-9a's last legal address. -/
theorem test_crcStore_range :
    next (execCrcStore { State.reset with dst := 0xFFFD#32 })
        (fun t => decide (latch t = (0x00002101#32, 0x14000000#32, 0x0000FFFD#32) ∧ t.dmem = [])) = true ∧
      next (execCrcStore { State.reset with dst := 0xFFFC#32 }) (fun t => decide (statusWord t = 0#32)) = true := by
  decide

/-! ## Filter unit -/

/-- V-FLT-13. -/
theorem test_fltStart :
    next (execFltStart { storePrev State.reset [1#8, 2#8, 3#8] with rowCount := 5#32, lastf := .up })
      (fun t => decide (prevRow t 3 = [0#8, 0#8, 0#8] ∧ t.rowCount = 0#32 ∧ t.lastf = .up)) = true := by decide

/-- V-SUB-1. -/
theorem test_fltDefilt_sub :
    next (execFltDefilt (rowState 0x0008#16 4#32 [0x01#8, 0x0A#8, 0x05#8, 0xFA#8, 0x0A#8] []))
      (fun t => decide (memRead t 0x10 4 = [0x0A#8, 0x0F#8, 0x09#8, 0x13#8] ∧
        prevRow t 4 = [0x0A#8, 0x0F#8, 0x09#8, 0x13#8] ∧ t.rowCount = 1#32 ∧ statusWord t = 0x00000004#32)) = true := by
  decide +kernel

/-- V-AVG-2: the sum of Average does not wrap. -/
theorem test_fltDefilt_average :
    next (execFltDefilt (rowState 0x0008#16 2#32 [0x03#8, 0x64#8, 0x00#8] [0xC8#8, 0xC8#8]))
      (fun t => decide (memRead t 0x10 2 = [0xC8#8, 0xC8#8])) = true := by decide +kernel

/-- V-PAE-3: p is exact, and the tie rule. -/
theorem test_fltFilt_paeth :
    next (execFltFilt 4#3 (rowState 0x0008#16 2#32 [0x00#8, 0x07#8] [0xFA#8, 0x05#8]))
      (fun t => decide (memRead t 0x10 3 = [0x04#8, 0x06#8, 0x07#8])) = true := by decide +kernel

/-- V-SUB-3: the stride is bpp. -/
theorem test_fltFilt_stride :
    next (execFltFilt 1#3 (rowState 0x0208#16 2#32 [0x0A#8, 0x14#8, 0x1E#8, 0x0B#8, 0x15#8, 0x1D#8] []))
      (fun t => decide (memRead t 0x10 7 = [0x01#8, 0x0A#8, 0x14#8, 0x1E#8, 0x01#8, 0x01#8, 0xFF#8])) = true := by
  decide +kernel

/-- V-SEL-6. -/
theorem test_fltSel :
    next (execFltSel
        (rowState 0x0008#16 4#32 [0x00#8, 0x10#8, 0x20#8, 0x30#8] [0xF0#8, 0xE0#8, 0xD0#8, 0xC0#8]))
      (fun t => decide (memRead t 0x10 5 = [0x04#8, 0x10#8, 0x10#8, 0x10#8, 0x10#8] ∧ t.scoreSub = 16#32 ∧
        t.scoreUp = 96#32 ∧ t.scoreAvg = 56#32 ∧ t.scorePaeth = 0#32 ∧ statusWord t = 0x00000010#32)) = true := by
  decide +kernel

/-- V-FLT-6: ERRINFO is n mod 2^32. -/
theorem test_fltSel_tooLong :
    next (execFltSel { State.reset with imgcfg := 0x0608#16, width := 0x40000000#32 })
      (fun t => decide (latch t = (0x00002201#32, 0x23000000#32, 0x00000000#32))) = true := by decide

/-- V-CHK-1 and V-CHK-2. -/
theorem test_fltChklen :
    next (execFltChklen { State.reset with imgcfg := 0x0608#16, width := 2#32, len := 18#32 })
        (fun t => decide (statusWord t = 0#32)) = true ∧
      next (execFltChklen { State.reset with imgcfg := 0x0608#16, width := 2#32, len := 17#32 })
        (fun t => decide (latch t = (0x00000501#32, 0x24000000#32, 0x00000011#32))) = true := by decide

/-- V-CHK-5: the scanline length is exact. -/
theorem test_fltChklen_exact :
    next (execFltChklen { State.reset with imgcfg := 0x0608#16, width := 0x40000000#32, len := 4#32 })
      (fun t => decide (latch t = (0x00000501#32, 0x24000000#32, 0x00000004#32))) = true := by decide

/-! ## Pixel unit -/

/-- V-PXC-5. -/
theorem test_palLoad :
    next (execPalLoad
        { holding 0 [0xFF#8, 0x00#8, 0x00#8, 0x00#8, 0xFF#8, 0x00#8, 0x00#8, 0x00#8, 0xFF#8] with len := 9#32 })
      (fun t => decide (t.pal = [(0, ⟨255#8, 0#8, 0#8, 255#8⟩), (1, ⟨0#8, 255#8, 0#8, 255#8⟩),
        (2, ⟨0#8, 0#8, 255#8, 255#8⟩)] ∧ t.palCount = 3#32 ∧ statusWord t = 0x00000002#32)) = true := by decide +kernel

/-- V-PXC-16: the length check comes before the range check. -/
theorem test_palLoad_order :
    next (execPalLoad { State.reset with src := 0xFFFA#32, len := 8#32 })
      (fun t => decide (latch t = (0x00000401#32, 0x30000000#32, 0x00000008#32))) = true := by decide

/-- V-PXC-11: the alpha bytes past PAL_COUNT are ignored. -/
theorem test_palTrns :
    next (execPalTrns
        { holding 0x20 [0x10#8, 0x20#8, 0x30#8] with
          src := 0x20#32, len := 3#32, palv := true, palCount := 2#32,
          pal := [(0, ⟨1#8, 2#8, 3#8, 255#8⟩), (1, ⟨0xAA#8, 0xBB#8, 0xCC#8, 255#8⟩)] })
      (fun t => decide (t.pal = [(0, ⟨1#8, 2#8, 3#8, 0x10#8⟩), (1, ⟨0xAA#8, 0xBB#8, 0xCC#8, 0x20#8⟩)])) = true := by
  decide +kernel

/-- V-PXC-13: the range is checked even with PALV = 0. -/
theorem test_palTrns_range :
    next (execPalTrns { State.reset with src := 0xFFFF#32, len := 2#32 })
      (fun t => decide (latch t = (0x00002101#32, 0x31000000#32, 0x0000FFFF#32))) = true := by decide

/-- V-PXC-18: GrayscaleAlpha. -/
theorem test_pxcUnpack :
    next (execPxcUnpack (rowState 0x0408#16 1#32 [0x80#8, 0x40#8] []))
      (fun t => decide (memRead t 0x10 4 = [0x80#8, 0x80#8, 0x80#8, 0x40#8])) = true := by decide +kernel

/-- V-PXC-7: the first bad index, and nothing written. -/
theorem test_pxcUnpack_index :
    next (execPxcUnpack
        { rowState 0x0308#16 3#32 [0x00#8, 0x03#8, 0x04#8] [] with
          palv := true, palCount := 3#32,
          pal := [(0, ⟨255#8, 0#8, 0#8, 128#8⟩), (1, ⟨0#8, 255#8, 0#8, 255#8⟩), (2, ⟨0#8, 0#8, 255#8, 255#8⟩)] })
      (fun t => decide (latch t = (0x00001003#32, 0x32000000#32, 0x00000003#32) ∧
        t.dmem = [(0, 0x00#8), (1, 0x03#8), (2, 0x04#8)])) = true := by decide +kernel

/-- V-PXC-25: an overlapping copy from the snapshot. -/
theorem test_pxcPack :
    next (execPxcPack
        { holding 0 [1#8, 2#8, 3#8, 4#8, 5#8, 6#8, 7#8, 8#8] with width := 2#32, dst := 2#32 })
      (fun t => decide (memRead t 0 10 = [1#8, 2#8, 1#8, 2#8, 3#8, 4#8, 5#8, 6#8, 7#8, 8#8])) = true := by
  decide +kernel

/-! ## Host and assembler -/

/-- 20_memory.md R60: a push appends, and a full queue holds. -/
theorem test_push :
    hostStep (.push 0x10000000#32) State.reset = .next ({ State.reset with cmdq := [0x10000000#32] }, .done) ∧
      hostStep (.push 0#32) { State.reset with params := ⟨1024, 4, 1⟩, cmdq := [0#32] } = .refused .pushHolds :=
  ⟨rfl, rfl⟩

/-- Words of program P1 and of V-SEQ-3 (95_test_vectors.md) from their source lines (30_encoding.md R81, R82). -/
theorem test_assemble :
    assemble ["crc.init ; start".toList, "crc.tag \"IEND\"".toList, "  li imgcfg, 0xFFFF1234".toList, "".toList] =
        some [0x10000000#32, 0x12000049#32, 0x12000045#32, 0x1200004E#32, 0x12000044#32, 0x02041234#32, 0x0304FFFF#32] ∧
      assemble ["FLT.PAETH".toList, "crc.updb 'a'".toList] = some [0x22000004#32, 0x12000061#32] ∧
      assemble ["setlo x5, 0".toList] = none ∧ assemble ["flt.filt 5".toList] = none := by decide +kernel

/-! ## Witnesses: each statement's hypotheses, met together, clause by clause and at the ends of the ranges -/

/-- A small block: DMEM_SIZE 1024, MAX_ROW_BYTES 4, CMDQ_DEPTH 1, each the least legal value (00_scope.md R6). -/
def small : State := { State.reset with params := ⟨1024, 4, 1⟩ }

/-- A row that fills PREV and ends at the last byte of DMEM: IMGCFG and WIDTH, the bytes up to address 1023. -/
def lastRow (cfg : BitVec 16) (width : Word) (bytes : List Byte) : State :=
  { memWrite small (1024 - bytes.length) bytes with
    imgcfg := cfg, width := width, src := BitVec.ofNat 32 (1024 - bytes.length) }

/-- `small` with a palette of one entry. -/
def withPalette : State := { small with palv := true, palCount := 1#32, pal := [(0, ⟨1#8, 2#8, 3#8, 255#8⟩)] }

theorem test_witness_DecodeOfEncode : (Instr.setlo 4#4 0xFFFF#16).wellFormed = true := by decide

theorem test_witness_EncodeOfDecode : decode 0x0304FFFF#32 = .ok (.sethi 4#4 0xFFFF#16) := by decide

/-- Both sides of `LegalWord` at FT 4 and 5 and at RD 4 and 5. -/
theorem test_witness_IllegalWordsRaise :
    LegalWord 0x22000004 ∧ ¬LegalWord 0x22000005 ∧ LegalWord 0x02040000 ∧ ¬LegalWord 0x02050000 ∧
      LegalWord 0x120000FF ∧ ¬LegalWord 0x12000100 ∧ LegalWord 0x33000000 ∧ ¬LegalWord 0x34000000 ∧
      { small with cmdq := [0x34000000#32] }.err = false := by
  refine ⟨?_, ?_, ?_, ?_, ?_, ?_, ?_, ?_, rfl⟩ <;> unfold LegalWord <;> decide

theorem test_witness_StepRunsDecodedCommand :
    (small.err = false ∧ decode 0x02040001#32 = .ok (.setlo 4#4 1#16)) ∧
      { small with err := true }.err = true ∧ decode 0x01000000#32 = .ok .clrerr := by decide

theorem test_witness_ErrorStateStep :
    { small with err := true, cmdq := [0x01000000#32] }.err = true ∧ (0x01000001#32 : Word) ≠ 0x01000000#32 := by decide

theorem test_witness_StepAlwaysCompletes : { small with cmdq := [0x33000000#32] }.cmdq = 0x33000000#32 :: [] := rfl

theorem test_witness_EmptyQueueIdles : small.cmdq = [] := rfl

/-- An illegal word, and a command that raises. -/
theorem test_witness_ErrorsArePrecise :
    (small.err = false ∧ next (step { small with cmdq := [0x34000000#32] }) (fun t => t.err) = true) ∧
      next (step { small with cmdq := [0x21000000#32] }) (fun t => t.err) = true := by decide

/-- Every code of R202 that a command raises, and a command with no failing check. -/
theorem test_witness_FirstFailingCheckRaises :
    firstFailing (.setlo 5#4 0#16) small = some (0x20, 0x02050000) ∧
      firstFailing .fltSel small = some (0x03, 0) ∧
      firstFailing .fltChklen { small with imgcfg := 0x0108#16 } = some (0x07, 1) ∧
      firstFailing .fltSel { small with imgcfg := 0x0008#16, width := 5#32 } = some (0x22, 5) ∧
      firstFailing .palLoad { small with len := 4#32 } = some (0x04, 4) ∧
      firstFailing .fltChklen { small with imgcfg := 0x0008#16, width := 1#32, len := 1#32 } = some (0x05, 1) ∧
      firstFailing .crcStore { small with dst := 1021#32 } = some (0x21, 1021) ∧
      firstFailing .fltDefilt (lastRow 0x0008#16 1#32 [5#8, 0#8]) = some (0x06, 5) ∧
      firstFailing .pxcUnpack (lastRow 0x0308#16 1#32 [0#8]) = some (0x10, 0) ∧
      firstFailing .crcCheck (lastRow 0#16 0#32 [0#8, 0#8, 0#8, 1#8]) = some (0x02, 1) ∧
      firstFailing .crcStore { small with dst := 1020#32 } = none := by decide +kernel

/-- The last clause of FirstFailingCheckRaises, at the first and the last unassigned opcode. -/
theorem test_witness_FirstFailingCheckRaises_noCommand :
    ({ small with cmdq := [0x04000000#32] } : State).err = false ∧ (∀ i, decode 0x04000000#32 ≠ .ok i) ∧
      ∀ i, decode 0xFF000000#32 ≠ .ok i := by
  have h4 : decode 0x04000000#32 = .error .unassignedOp := by decide
  have hF : decode 0xFF000000#32 = .error .unassignedOp := by decide
  exact ⟨rfl, by simp [h4], by simp [hF]⟩

theorem test_witness_InvariantAtReset :
    Params.Legal ⟨1024, 4, 1⟩ ∧ Params.Legal ⟨2 ^ 32, 2 ^ 32, 1⟩ ∧ ¬Params.Legal ⟨1023, 4, 1⟩ := by decide

/-- A state with a listed DMEM byte, a PREV byte, a palette, an error and a full queue meets the invariant. -/
theorem test_witness_inv :
    State.Inv { memWrite withPalette 1023 [7#8] with
      prev := [(3, 9#8)], err := true, errCode := 0x22#8, cmdq := [0x34000000#32] } where
  paramsLegal := by decide
  dmemWf := by decide
  prevWf := by decide
  palWf := by decide
  palCountRange := by decide
  palLoaded := by decide
  palvCount := by decide
  errCodeMeans := .inr (by decide)
  cmdqFits := by decide

theorem test_witness_StepKeepsInvariant :
    next (step { memWrite withPalette 1023 [7#8] with
      prev := [(3, 9#8)], err := true, errCode := 0x22#8, cmdq := [0x34000000#32] }) (fun _ => true) = true := by decide

/-- A write to the last address, and a push into an empty queue. -/
theorem test_witness_HostKeepsInvariant :
    hostStep (.writeDmem 1023 0#8) small = .next (memWrite small 1023 [0#8], .done) ∧
      hostStep (.push 0#32) small = .next (pushCmdq small 0#32, .done) := ⟨rfl, rfl⟩

/-- A state reached by a push and a step. -/
theorem test_witness_ReachableStatesMeetInvariant : Params.Legal ⟨1024, 4, 1⟩ ∧ Reachable ⟨1024, 4, 1⟩ small := by
  refine ⟨by decide, ?_⟩
  have h : Reachable ⟨1024, 4, 1⟩ (pushCmdq small 0#32) :=
    Reachable.host (act := .push 0#32) (reply := .done) (.reset 0) rfl
  exact Reachable.sequencer h (by decide) rfl

theorem test_witness_SetloWritesLowHalf : (0#4).toNat ≤ 4 ∧ (4#4).toNat ≤ 4 ∧ 3#4 ≠ 4#4 := by decide

theorem test_witness_SethiWritesHighHalf : (0#4).toNat ≤ 4 ∧ (4#4).toNat ≤ 4 ∧ 15#4 ≠ 4#4 := by decide

theorem test_witness_LiLoadsWholeRegister : (4#4).toNat ≤ 4 ∧ (Pseudo.li 4#4 0xFFFF1234#32).expand.length = 2 := by
  decide

theorem test_witness_AssembledCommandsDecode :
    assembleLine "flt.filt 4".toList = some [.fltFilt 4#3] ∧ assembleLine "setlo x4, 65535".toList =
      some [.setlo 4#4 0xFFFF#16] := by decide +kernel

/-- The whole of DMEM's last 4 bytes, and an empty range at DMEM_SIZE. -/
theorem test_witness_CrcUpdFoldsBytes :
    reg { small with src := 1020#32, len := 4#32 } 0 + reg { small with src := 1020#32, len := 4#32 } 2 ≤
        small.params.dmemSize ∧
      reg { small with src := 1024#32 } 0 + reg { small with src := 1024#32 } 2 ≤ small.params.dmemSize := by decide

theorem test_witness_CrcUpdSplitsAnywhere :
    reg { small with src := 1020#32 } 0 + (0 + 4) < 2 ^ 32 ∧
      reg { small with src := 1020#32 } 0 + (3 + 1) ≤ small.params.dmemSize := by decide

theorem test_witness_CrcUpdbEqualsOneByteUpd :
    reg { lastRow 0#16 0#32 [7#8] with len := 1#32 } 2 = 1 ∧
      reg { lastRow 0#16 0#32 [7#8] with len := 1#32 } 0 + 1 ≤ small.params.dmemSize ∧
      dmemByte { lastRow 0#16 0#32 [7#8] with len := 1#32 } 1023 = 7#8 := by decide

/-- Equal and different stored values, at DMEM's last 4 bytes. -/
theorem test_witness_CrcCheckComparesFinishedValue :
    (reg (lastRow 0#16 0#32 [0#8, 0#8, 0#8, 0#8]) 0 + 4 ≤ small.params.dmemSize ∧
        be32At (lastRow 0#16 0#32 [0#8, 0#8, 0#8, 0#8]) 1020 = reg (lastRow 0#16 0#32 [0#8, 0#8, 0#8, 0#8]) 6) ∧
      be32At (lastRow 0#16 0#32 [0#8, 0#8, 0#8, 1#8]) 1020 ≠ reg (lastRow 0#16 0#32 [0#8, 0#8, 0#8, 1#8]) 6 := by
  decide

theorem test_witness_CrcStoreWritesBigEndian :
    reg { small with dst := 1020#32 } 1 + 4 ≤ { small with dst := 1020#32 }.params.dmemSize := by decide

theorem test_witness_CrcStoreThenCheckPasses : reg small 1 + 4 ≤ small.params.dmemSize := by decide

/-- Two rows of two bytes that differ in the second, at DMEM's end. -/
theorem test_witness_CrcDetectsOneChangedByte :
    let s := { lastRow 0#16 0#32 [7#8, 8#8] with len := 2#32 }
    let t := memWrite s 1023 [9#8]
    reg s 0 + reg s 2 ≤ s.params.dmemSize ∧ t = { s with dmem := t.dmem } ∧ 1 < reg s 2 ∧
      dmemByte t (reg s 0 + 1) ≠ dmemByte s (reg s 0 + 1) ∧
      ∀ y, y < reg s 2 → y ≠ 1 → dmemByte t (reg s 0 + y) = dmemByte s (reg s 0 + y) := by decide +kernel

/-- Each branch of Paeth: left, above and upper-left. -/
theorem test_witness_PredictorRule :
    paeth 30#8 0#8 10#8 = 30#8 ∧ paeth 0#8 30#8 10#8 = 30#8 ∧ paeth 10#8 0#8 5#8 = 5#8 := by decide

/-- A full row in PREV, a tag byte, and both buffers ending at DMEM's end. -/
theorem test_witness_FltDefiltReconstructsRow :
    let s := { lastRow 0x0608#16 1#32 [4#8, 1#8, 2#8, 3#8, 4#8] with dst := 1020#32 }
    Configured s 6 4 ∧ 4 = reg s 3 * 4 ∧ 4 ≤ s.params.maxRowBytes ∧ reg s 0 + (1 + 4) ≤ s.params.dmemSize ∧
      reg s 1 + 4 ≤ s.params.dmemSize ∧ mem s (reg s 0) = FilterType.paeth.number := by
  unfold Configured
  decide +kernel

theorem test_witness_FltFiltFiltersRow :
    let s := { lastRow 0x0408#16 2#32 [1#8, 2#8, 3#8, 4#8] with dst := 1019#32 }
    Configured s 4 2 ∧ 4 = reg s 3 * 2 ∧ 4 ≤ s.params.maxRowBytes ∧ reg s 0 + 4 ≤ s.params.dmemSize ∧
      reg s 1 + (1 + 4) ≤ s.params.dmemSize ∧ (4#3).toNat = FilterType.paeth.number ∧
      (0#3).toNat = FilterType.none.number := by
  unfold Configured
  decide +kernel

/-- The row of the tests, with every score below 2^32; and an empty row. -/
theorem test_witness_FltSelPicksFirstMinimum :
    let s := { lastRow 0x0008#16 4#32 [1#8, 2#8, 4#8, 8#8] with dst := 1019#32 }
    let e := { small with imgcfg := 0x0008#16, src := 1024#32, dst := 1023#32 }
    (Configured s 0 1 ∧ 4 = reg s 3 * 1 ∧ 4 ≤ s.params.maxRowBytes ∧ reg s 0 + 4 ≤ s.params.dmemSize ∧
        reg s 1 + (1 + 4) ≤ s.params.dmemSize ∧ ∀ t ∈ [1, 2, 3, 4], scoreOf s 1 4 t < 2 ^ 32) ∧
      Configured e 0 1 ∧ 0 = reg e 3 * 1 ∧ reg e 0 + 0 ≤ e.params.dmemSize ∧
      reg e 1 + (1 + 0) ≤ e.params.dmemSize := by
  unfold Configured
  decide +kernel

/-- Whole scanlines, and one byte more. -/
theorem test_witness_FltChklenPassesWholeRows :
    let s := { small with imgcfg := 0x0208#16, width := 2#32, len := 14#32 }
    Configured s 2 3 ∧ reg s 2 % (1 + reg s 3 * 3) = 0 ∧
      reg { s with len := 15#32 } 2 % (1 + reg { s with len := 15#32 } 3 * 3) ≠ 0 := by
  unfold Configured
  decide +kernel

theorem test_witness_FilterInverseLaw :
    let s := { lastRow 0x0608#16 1#32 [1#8, 2#8, 3#8, 4#8] with dst := 1019#32 }
    Configured s 6 4 ∧ 4 = reg s 3 * 4 ∧ 4 ≤ s.params.maxRowBytes ∧ reg s 0 + 4 ≤ s.params.dmemSize ∧
      reg s 1 + (1 + 4) ≤ s.params.dmemSize ∧ (4#3).toNat ≤ 4 ∧ (1020#32).toNat + 4 ≤ s.params.dmemSize := by
  unfold Configured
  decide +kernel

/-- Two states with the same row at different addresses, over PREV rows that differ above the row's end. -/
theorem test_witness_SelectionIsPure :
    let s := { lastRow 0x0008#16 2#32 [1#8, 2#8] with dst := 0#32, prev := [(0, 5#8)] }
    let s' := { memWrite small 0 [1#8, 2#8] with
                imgcfg := 0x0308#16, width := 2#32, dst := 1021#32, prev := [(0, 5#8), (3, 6#8)] }
    Configured s 0 1 ∧ Configured s' 3 1 ∧ 2 = reg s 3 * 1 ∧ 2 = reg s' 3 * 1 ∧ 2 ≤ s.params.maxRowBytes ∧
      reg s 0 + 2 ≤ s.params.dmemSize ∧ reg s 1 + (1 + 2) ≤ s.params.dmemSize ∧ 2 ≤ s'.params.maxRowBytes ∧
      reg s' 0 + 2 ≤ s'.params.dmemSize ∧ reg s' 1 + (1 + 2) ≤ s'.params.dmemSize ∧
      (∀ x < 2, dmemByte s' (reg s' 0 + x) = dmemByte s (reg s 0 + x)) ∧ ∀ x < 2, prevByte s' x = prevByte s x := by
  unfold Configured
  decide +kernel

theorem test_witness_RowZeroPaethEqualsSub :
    let s := { lastRow 0x0008#16 4#32 [1#8, 2#8, 3#8, 4#8] with dst := 1019#32 }
    Configured s 0 1 ∧ 4 = reg s 3 * 1 ∧ 4 ≤ s.params.maxRowBytes ∧ reg s 0 + 4 ≤ s.params.dmemSize ∧
      reg s 1 + (1 + 4) ≤ s.params.dmemSize ∧ ∀ x < 4, prevByte s x = 0#8 := by
  unfold Configured
  decide +kernel

/-- Bit depths 0 and 16; every color model; a model number that is none. -/
theorem test_witness_BytesPerPixelTable :
    (0x0000#16).toNat % 256 ≠ 8 ∧ (0x0010#16).toNat % 256 ≠ 8 ∧
      (∀ e ∈ bppTable, (BitVec.ofNat 16 (256 * e.1 + 8)).toNat % 256 = 8 ∧
        (BitVec.ofNat 16 (256 * e.1 + 8)).toNat / 256 = e.1) ∧
      (0x0108#16).toNat % 256 = 8 ∧ (0x0108#16).toNat / 256 ∉ [0, 2, 3, 4, 6] := by decide

/-- No entry, one entry, and more triples than PAL has entries. -/
theorem test_witness_PalLoadBuildsPalette :
    (reg { small with src := 1024#32 } 2 % 3 = 0 ∧ reg { small with src := 1024#32 } 0 + 0 ≤ small.params.dmemSize) ∧
      (reg { small with src := 1021#32, len := 3#32 } 2 % 3 = 0 ∧
        reg { small with src := 1021#32, len := 3#32 } 0 + 3 ≤ small.params.dmemSize) ∧
      reg { small with len := 771#32 } 2 % 3 = 0 ∧ reg { small with len := 771#32 } 0 + 771 ≤ small.params.dmemSize ∧
      256 = min (771 / 3) 256 := by decide

theorem test_witness_PalTrnsSetsAlphas :
    (reg small 0 + reg small 2 ≤ small.params.dmemSize ∧ small.palv = false) ∧
      reg { withPalette with src := 1022#32, len := 2#32 } 0 + reg { withPalette with src := 1022#32, len := 2#32 } 2 ≤
        small.params.dmemSize ∧ withPalette.palv = true ∧ min 2 (reg withPalette 9) = 1 := by decide

/-- Palette mode with an index below PAL_COUNT, and each other color model. -/
theorem test_witness_PxcUnpackConvertsPixels :
    let s := { memWrite withPalette 1023 [0#8] with imgcfg := 0x0308#16, width := 1#32, src := 1023#32, dst := 1020#32 }
    (Configured s 3 1 ∧ reg s 0 + reg s 3 * 1 ≤ s.params.dmemSize ∧ reg s 1 + 4 * reg s 3 ≤ s.params.dmemSize ∧
        ∀ x < reg s 3, mem s (reg s 0 + x) < reg s 9) ∧
      Configured { s with imgcfg := 0x0008#16 } 0 1 ∧ Configured { s with imgcfg := 0x0208#16, src := 1021#32 } 2 3 ∧
      Configured { s with imgcfg := 0x0408#16, src := 1022#32 } 4 2 ∧
      Configured { s with imgcfg := 0x0608#16, src := 1020#32 } 6 4 ∧ 1020 + 1 * 4 ≤ s.params.dmemSize := by
  unfold Configured
  decide +kernel

theorem test_witness_PxcPackCopiesRow :
    let s := { small with width := 1#32, src := 1020#32, dst := 1018#32 }
    reg s 0 + 4 * reg s 3 ≤ s.params.dmemSize ∧ reg s 1 + 4 * reg s 3 ≤ s.params.dmemSize := by decide

/-- Both encoders; every buffer at DMEM's end. -/
theorem test_witness_PixelRoundTrip :
    let s := { small with imgcfg := 0x0608#16, width := 1#32, src := 1020#32 }
    s.imgcfg = 0x0608#16 ∧ 4 = 4 * reg s 3 ∧ 4 ≤ s.params.maxRowBytes ∧
      (Instr.fltSel = .fltSel ∧ (4#3).toNat ≤ 4 ∧ Instr.fltFilt 4#3 = .fltFilt 4#3) ∧ reg s 0 + 4 ≤ s.params.dmemSize ∧
      (1020#32).toNat + 4 ≤ s.params.dmemSize ∧ (1019#32).toNat + (1 + 4) ≤ s.params.dmemSize := by decide

/-- Two colors, one alpha byte, a row of both indices. -/
theorem test_witness_PaletteTransparencyLaw :
    let s := memWrite small 1022 [0#8, 1#8]
    2 ≤ 256 ∧ 1 ≤ 2 ∧ 2 < 2 ^ 32 ∧ reg s 0 + 3 * 2 ≤ s.params.dmemSize ∧ (1023#32).toNat + 1 ≤ s.params.dmemSize ∧
      (1022#32).toNat + 2 ≤ s.params.dmemSize ∧ (1016#32).toNat + 4 * 2 ≤ s.params.dmemSize ∧
      ∀ x < 2, mem s ((1022#32).toNat + x) < 2 := by decide +kernel

/-- An entry above PAL_COUNT that only one of two states holds, before a command that reads PAL. -/
theorem test_witness_UnloadedPaletteEntriesUnobservable :
    next (exec .palTrns withPalette) (fun _ => true) = true ∧
      ∀ k < reg withPalette 9,
        palEntry { withPalette with pal := [(0, ⟨1#8, 2#8, 3#8, 255#8⟩), (1, ⟨9#8, 9#8, 9#8, 9#8⟩)] } k =
          palEntry withPalette k := by decide

theorem test_witness_HostPushAppends :
    small.cmdq.length < small.params.cmdqDepth ∧
      { small with cmdq := [0#32] }.params.cmdqDepth ≤ { small with cmdq := [0#32] }.cmdq.length := by decide

theorem test_witness_BusyBlocksHostAccess :
    2 ^ 31 ≤ reg { small with cmdq := [0#32] } 7 ∧ 6#4 ≠ 7#4 ∧ reg small 7 < 2 ^ 31 := by decide

/-- The states of an execution that pushes NOP, executes it and then rests. -/
def pushedNop : Nat → State
  | 1 => pushCmdq small 0#32
  | _ => small

/-- Its events. -/
def pushedNopEvents : Nat → Event
  | 0 => .host (.push 0#32) .done
  | 1 => .sequencer
  | _ => .idle

/-- A weakly fair execution of the smallest block, whose queue is full in its state 1, with no push from then on. -/
theorem test_witness_FairRunsDrainQueue :
    Params.Legal ⟨1024, 4, 1⟩ ∧ Execution ⟨1024, 4, 1⟩ pushedNop pushedNopEvents ∧
      WeaklyFair pushedNop pushedNopEvents ∧ (pushedNop 1).cmdq.length = 1 ∧
      ∀ m, 1 ≤ m → ∀ w reply, pushedNopEvents m ≠ .host (.push w) reply := by
  refine ⟨by decide, ⟨⟨0, rfl⟩, fun n => ?_⟩, fun n => ?_, rfl, fun m hm w reply h => ?_⟩
  · match n with
    | 0 => rfl
    | 1 => exact ⟨by decide, rfl⟩
    | n + 2 => rfl
  · match n with
    | 0 => exact ⟨0, by omega, .inl rfl⟩
    | 1 => exact ⟨1, by omega, .inr rfl⟩
    | n + 2 => exact ⟨n + 2, by omega, .inl rfl⟩
  · match m with
    | 1 => cases h
    | m + 2 => cases h

theorem test_witness_HostDmemReadsLastWrite :
    small.cmdq = [] ∧ 0 < small.params.dmemSize ∧ 1023 < small.params.dmemSize := by decide

/-- For each clause, a command that changes what the clause is about. -/
theorem test_witness_OnlyNamedCommandsWriteState :
    next (exec (.sethi 3#4 1#16) small) (fun t => decide (readReg t 3#4 ≠ readReg small 3#4)) = true ∧
      next (exec (.crcUpdb 0#8) small) (fun t => decide (t.crcAcc ≠ small.crcAcc)) = true ∧
      next (exec .palLoad small) (fun t => decide (t.palv ≠ small.palv)) = true ∧
      next (exec .fltStart { small with prev := [(0, 1#8)] }) (fun t => decide (t.prev ≠ [(0, 1#8)])) = true ∧
      next (exec (.fltFilt 1#3) (lastRow 0x0008#16 1#32 [7#8])) (fun t => decide (t.lastf ≠ .none)) = true ∧
      next (exec .fltSel { lastRow 0x0008#16 2#32 [7#8, 8#8] with dst := 0#32 })
        (fun t => decide (t.scoreUp ≠ small.scoreUp)) = true ∧
      next (exec .fltSel small) (fun t => decide (t.errCmd ≠ small.errCmd ∧ t.err = true)) = true ∧
      next (exec .clrerr { small with err := true }) (fun t => decide (t.err = false)) = true ∧
      next (exec .palTrns { memWrite withPalette 0 [0#8] with len := 1#32 })
        (fun t => decide (t.pal ≠ withPalette.pal)) = true ∧
      next (exec .clrerr { small with err := true, errCode := 2#8 }) (fun t => decide (t.errCode ≠ 2#8)) = true ∧
      next (exec .palLoad { small with len := 4#32 })
        (fun t => decide (t = errored 0x30000000#32 0x04#8 4#32 { small with len := 4#32 })) = true ∧
      next (exec .crcStore small) (fun t => decide (t.dmem ≠ small.dmem)) = true := by decide +kernel

/-- A copy of 4 bytes, in two states whose DMEM differs outside the range it reads. -/
theorem test_witness_CommandsTouchOnlyTheirRanges :
    let s := { memWrite small 0 [1#8, 2#8, 3#8, 4#8] with width := 1#32, dst := 8#32 }
    next (exec .pxcPack s) (fun _ => true) = true ∧ ¬InRange (writeRange .pxcPack s) 7 ∧
      InRange (writeRange .pxcPack s) 8 ∧
      ∀ a, InRange (readRange .pxcPack s) a →
        dmemByte { s with dmem := [(0, 1#8), (1, 2#8), (2, 3#8), (3, 4#8), (4, 9#8)] } a = dmemByte s a := by
  refine ⟨by decide +kernel, by unfold InRange; decide, by unfold InRange; decide, fun a ha => ?_⟩
  have : a < 4 := ha.2
  interval_cases a <;> rfl

end Sys2Proof.Tests
end

/-! PROOFS. What a command may write, said once (`Writes`), the operations that keep the invariant, and the statements of
10_state.md settled from them. -/

namespace Sys2Proof.Machine

open Sys2Proof.Claims

/-! ## The operand registers -/

/-- A write to an operand register writes no other field of the state. -/
theorem writeOperand_eq (s : State) (rd : BitVec 4) (v : Word) : ∃ src dst len width imgcfg,
    writeOperand s rd v = { s with src := src, dst := dst, len := len, width := width, imgcfg := imgcfg } := by
  unfold writeOperand
  split <;> exact ⟨_, _, _, _, _, rfl⟩

/-- The operand registers read the same in two states that hold the same in them. -/
theorem readReg_operand_congr {s t : State} (hsrc : t.src = s.src) (hdst : t.dst = s.dst) (hlen : t.len = s.len)
    (hwidth : t.width = s.width) (hcfg : t.imgcfg = s.imgcfg) {r : BitVec 4} (hr : r.toNat ≤ 4) :
    readReg t r = readReg s r := by
  have : r.toNat = 0 ∨ r.toNat = 1 ∨ r.toNat = 2 ∨ r.toNat = 3 ∨ r.toNat = 4 := by omega
  rcases this with h | h | h | h | h <;> simp only [readReg, h, hsrc, hdst, hlen, hwidth, hcfg]

/-! ## What a command writes -/

/-- What a command may write (10_state.md R21, R29, R31 to R37; 20_memory.md R51), with the bounds its checks give; and
error entry, which any command may end in (60_exceptions.md R205). -/
inductive Writes (s : State) : Instr → State → Prop where
  /-- Error entry, with a kind the block raises (60_exceptions.md R202). -/
  | error {i : Instr} (e : Raise) (he : e.kind.raised = true) : Writes s i (errorEntry (encode i) e s)
  /-- A command with nothing to write: NOP, a check that passes, PAL.TRNS without a palette. -/
  | nothing {i : Instr} : Writes s i s
  /-- CLRERR (43_sequencer.md R181). -/
  | latch : Writes s .clrerr (errorReturn s)
  /-- SETLO and SETHI (R182, R183). -/
  | operand {i : Instr} {rd : BitVec 4} {v src dst len width : Word} {imgcfg : BitVec 16}
      (hi : ∃ half, i = .setlo rd half ∨ i = .sethi rd half)
      (ht : writeOperand s rd v = { s with src := src, dst := dst, len := len, width := width, imgcfg := imgcfg }) :
      Writes s i { s with src := src, dst := dst, len := len, width := width, imgcfg := imgcfg }
  /-- The CRC commands that fold or restart (40_crc.md R101 to R103). -/
  | crc {i : Instr} (v : Word) (hi : i = .crcInit ∨ i = .crcUpd ∨ ∃ b, i = .crcUpdb b) :
      Writes s i { s with crcAcc := v }
  /-- FLT.START (41_filter.md R124). -/
  | start : Writes s .fltStart { clearPrev s with rowCount := 0#32 }
  /-- FLT.DEFILT and FLT.FILT (R125, R126). -/
  | row {i : Instr} (t : FilterType) (raw : List Byte) (a : Nat) (bytes : List Byte)
      (hi : i = .fltDefilt ∨ ∃ ft, i = .fltFilt ft) (hraw : raw.length ≤ s.params.maxRowBytes)
      (hb : a + bytes.length ≤ s.params.dmemSize) : Writes s i (rowDone t raw (memWrite s a bytes))
  /-- FLT.SEL (R127). -/
  | selected (t : FilterType) (bpp : Nat) (prior raw : List Byte) (a : Nat) (bytes : List Byte)
      (hraw : raw.length ≤ s.params.maxRowBytes) (hb : a + bytes.length ≤ s.params.dmemSize) :
      Writes s .fltSel (rowDone t raw (storeScores bpp prior raw (memWrite s a bytes)))
  /-- The other commands that store to DMEM (20_memory.md R51). -/
  | store {i : Instr} (a : Nat) (bytes : List Byte) (hi : i = .crcStore ∨ i = .pxcUnpack ∨ i = .pxcPack)
      (hb : a + bytes.length ≤ s.params.dmemSize) : Writes s i (memWrite s a bytes)
  /-- PAL.LOAD (42_pixel.md R152). -/
  | palette (entries : List Rgba) (hn : entries.length ≤ 256) :
      Writes s .palLoad { storePal s entries with palCount := BitVec.ofNat 32 entries.length, palv := true }
  /-- PAL.TRNS with a palette (R153). -/
  | alphas (entries : List Rgba) (hn : entries.length ≤ s.palCount.toNat) : Writes s .palTrns (storePal s entries)

theorem writes_writeOperand (s : State) {i : Instr} {rd : BitVec 4} (v : Word)
    (hi : ∃ half, i = .setlo rd half ∨ i = .sethi rd half) : Writes s i (writeOperand s rd v) := by
  obtain ⟨_, _, _, _, _, ht⟩ := writeOperand_eq s rd v
  exact ht ▸ .operand hi ht

/-- Every effect writes what its command may write, inside the ranges its checks have passed. -/
theorem effectOf_writes {i : Instr} {s t : State} (h : effectOf i s = .ok t) : Writes s i t := by
  cases i with
  | nop => cases h; exact .nothing
  | clrerr => cases h; exact .latch
  | setlo rd half =>
    obtain ⟨-, rfl⟩ := (setloEffect_eq_ok ..).1 h
    exact writes_writeOperand s _ ⟨half, .inl rfl⟩
  | sethi rd half =>
    obtain ⟨-, rfl⟩ := (sethiEffect_eq_ok ..).1 h
    exact writes_writeOperand s _ ⟨half, .inr rfl⟩
  | crcInit => cases h; exact .crc _ (.inl rfl)
  | crcUpd =>
    obtain ⟨-, rfl⟩ := (crcUpdEffect_eq_ok ..).1 h
    exact .crc _ (.inr (.inl rfl))
  | crcUpdb b => cases h; exact .crc _ (.inr (.inr ⟨b, rfl⟩))
  | crcCheck =>
    obtain ⟨-, -, rfl⟩ := (crcCheckEffect_eq_ok ..).1 h
    exact .nothing
  | crcStore =>
    obtain ⟨hb, rfl⟩ := (crcStoreEffect_eq_ok ..).1 h
    exact .store _ _ (.inl rfl) (by rwa [length_beBytes])
  | fltStart => cases h; exact .start
  | fltDefilt =>
    obtain ⟨bpp, ty, hrow, -, hb, -, rfl⟩ := (fltDefiltEffect_eq_ok ..).1 h
    have hfits := ((rowPrologue_eq_ok ..).1 hrow).2
    exact .row _ _ _ _ (.inl rfl) (by simpa [length_defilterBytes] using hfits)
      (by simpa [length_defilterBytes] using hb)
  | fltFilt ft =>
    obtain ⟨ty, bpp, -, hrow, -, hb, rfl⟩ := (fltFiltEffect_eq_ok ..).1 h
    have hfits := ((rowPrologue_eq_ok ..).1 hrow).2
    exact .row _ _ _ _ (.inr ⟨ft, rfl⟩) (by simpa using hfits) (by simpa [length_taggedRow] using hb)
  | fltSel =>
    obtain ⟨bpp, hrow, -, hb, rfl⟩ := (fltSelEffect_eq_ok ..).1 h
    have hfits := ((rowPrologue_eq_ok ..).1 hrow).2
    exact .selected _ _ _ _ _ _ (by simpa using hfits) (by simpa [length_taggedRow] using hb)
  | fltChklen =>
    obtain ⟨bpp, -, -, rfl⟩ := (fltChklenEffect_eq_ok ..).1 h
    exact .nothing
  | palLoad =>
    obtain ⟨-, -, rfl⟩ := (palLoadEffect_eq_ok ..).1 h
    have hw := Writes.palette (s := s) (paletteOf (memRead s s.src.toNat s.len.toNat) (min (s.len.toNat / 3) 256))
    rw [length_paletteOf] at hw
    exact hw (Nat.min_le_right _ _)
  | palTrns =>
    obtain ⟨-, rfl⟩ := (palTrnsEffect_eq_ok ..).1 h
    split
    · exact .alphas _ (by rw [length_transparentOf]; exact Nat.min_le_right _ _)
    · exact .nothing
  | pxcUnpack =>
    obtain ⟨m, ps, -, -, hb, hps, rfl⟩ := (pxcUnpackEffect_eq_ok ..).1 h
    have hlen := ((unpackFrom_eq_ok ..).1 hps).1
    exact .store _ _ (.inr (.inl rfl)) (by rwa [length_pixelBytes, hlen])
  | pxcPack =>
    obtain ⟨-, hb, rfl⟩ := (pxcPackEffect_eq_ok ..).1 h
    exact .store _ _ (.inr (.inr rfl)) (by rwa [length_memRead])

/-- Every command that answers has written what it may. -/
theorem exec_writes {i : Instr} {s t : State} (h : exec i s = .next t) : Writes s i t := by
  rcases exec_cases h with hok | ⟨e, he, rfl⟩
  · exact effectOf_writes hok
  · exact .error e (effectOf_raises he)

/-! ## The invariant and the operations on the state -/

theorem cellsWf_nil {α : Type} (bound : Nat) : cellsWf bound ([] : List (Nat × α)) := ⟨.nil, nofun⟩

section
variable {s : State} (hs : s.Inv)
include hs

theorem memWrite_inv {a : Nat} {bytes : List Byte} (hb : a + bytes.length ≤ s.params.dmemSize) :
    (memWrite s a bytes).Inv :=
  { hs with dmemWf := memWrite_wf s a bytes _ hs.dmemWf hb }

theorem rowDone_inv (t : FilterType) {raw : List Byte} (hraw : raw.length ≤ s.params.maxRowBytes) :
    (rowDone t raw s).Inv :=
  { hs with prevWf := storePrev_wf s raw _ hs.prevWf hraw }

theorem storeScores_inv (bpp : Nat) (prior row : List Byte) : (storeScores bpp prior row s).Inv := { hs with }

theorem storePal_inv {entries : List Rgba} (hn : entries.length ≤ 256) : (storePal s entries).Inv :=
  { hs with
    palWf := storePal_wf s entries hs.palWf hn
    palLoaded := fun i hi => entryAt_storePal_isSome s entries i (.inr (hs.palLoaded i hi)) }

/-- A loaded palette counts just the entries it has stored (42_pixel.md R152). -/
theorem paletteLoaded_inv {entries : List Rgba} (hn : entries.length ≤ 256) :
    State.Inv { storePal s entries with palCount := BitVec.ofNat 32 entries.length, palv := true } := by
  have hcount : (BitVec.ofNat 32 entries.length).toNat = entries.length :=
    Nat.mod_eq_of_lt (by omega)
  exact
    { storePal_inv hs hn with
      palCountRange := hcount.trans_le hn
      palLoaded := fun i hi => entryAt_storePal_isSome s entries i (.inl (hcount ▸ hi))
      palvCount := fun h => by cases h }

theorem errorReturn_inv : (errorReturn s).Inv := { hs with errCodeMeans := .inl ⟨rfl, rfl⟩ }

theorem errorEntry_inv (w : Word) {e : Raise} (he : e.kind.raised = true) : (errorEntry w e s).Inv :=
  { hs with errCodeMeans := .inr ⟨rfl, code_mem_writtenCodes he⟩ }

theorem popCmdq_inv : (popCmdq s).Inv :=
  { hs with cmdqFits := (List.tail_sublist s.cmdq).length_le.trans hs.cmdqFits }

theorem pushCmdq_inv (w : Word) (hroom : s.cmdq.length < s.params.cmdqDepth) : (pushCmdq s w).Inv :=
  { hs with cmdqFits := by simpa using hroom }

/-- What a command may write keeps the invariant. -/
theorem Writes.inv {i : Instr} {t : State} (h : Writes s i t) : t.Inv := by
  cases h with
  | error e he => exact errorEntry_inv hs _ he
  | nothing => exact hs
  | latch => exact errorReturn_inv hs
  | operand => exact { hs with }
  | crc v _ => exact { hs with }
  | start => exact { hs with prevWf := ⟨cellsWf_nil _, nofun⟩ }
  | row ty raw a bytes _ hraw hb => exact rowDone_inv (memWrite_inv hs hb) ty hraw
  | selected ty bpp prior raw a bytes hraw hb =>
    exact rowDone_inv (storeScores_inv (memWrite_inv hs hb) bpp prior raw) ty hraw
  | store a bytes _ hb => exact memWrite_inv hs hb
  | palette entries hn => exact paletteLoaded_inv hs hn
  | alphas entries hn => exact storePal_inv hs (hn.trans hs.palCountRange)

end

/-- The invariant holds after a reset of a legal block. -/
theorem resetOf_inv {p : Params} (hp : p.Legal) (epoch : Nat) : (State.resetOf p epoch).Inv where
  paramsLegal := hp
  dmemWf := cellsWf_nil _
  prevWf := ⟨cellsWf_nil _, nofun⟩
  palWf := cellsWf_nil _
  palCountRange := Nat.zero_le 256
  palLoaded := fun i hi => absurd hi (Nat.not_lt_zero i)
  palvCount := fun _ => rfl
  errCodeMeans := .inl ⟨rfl, rfl⟩
  cmdqFits := Nat.zero_le _

/-- Settles O14: each case of the step is an operation that keeps the invariant. -/
theorem stepKeepsInvariant : Obligations.StepKeepsInvariant := by
  intro s t hs h
  rcases step_cases s with ⟨-, hstep⟩ | ⟨w, rest, -, ⟨-, hstep⟩ | ⟨-, -, hstep⟩ | ⟨-, i, -, hstep⟩⟩ <;>
    rw [hstep] at h
  · cases h
    exact hs
  · cases h
    exact popCmdq_inv hs
  · cases h
    exact errorEntry_inv (popCmdq_inv hs) w rfl
  · exact (exec_writes h).inv (popCmdq_inv hs)

/-- Settles O13: the invariant holds after the reset of every legal block. -/
theorem invariantAtReset : Obligations.InvariantAtReset :=
  ⟨fun _ epoch hp => resetOf_inv hp epoch, resetOf_inv (by decide) 0⟩

/-! ## The host's actions -/

/-- One inversion for a host action that answers: a read, a push with room, a write inside DMEM while the block is idle,
or reset (10_state.md R20). -/
theorem hostStep_cases {act : HostAction} {s t : State} {reply : HostReply} (h : hostStep act s = .next (t, reply)) :
    (t = s ∧ reply ≠ .done) ∨
      (∃ w, act = .push w ∧ s.cmdq.length < s.params.cmdqDepth ∧ t = pushCmdq s w ∧ reply = .done) ∨
      (∃ a b, act = .writeDmem a b ∧ busy s = false ∧ a < s.params.dmemSize ∧ t = memWrite s a [b] ∧ reply = .done) ∨
      (act = .reset ∧ t = State.resetOf s.params (s.drawEpoch + 1) ∧ reply = .done) := by
  cases act with
  | push w =>
    simp only [hostStep, hostPush] at h
    split at h
    · cases h
      exact .inr (.inl ⟨w, rfl, ‹_›, rfl, rfl⟩)
    · cases h
  | readStatus => cases h; exact .inl ⟨rfl, nofun⟩
  | readReg i =>
    simp only [hostStep, hostReadReg] at h
    split at h <;> cases h
    exact .inl ⟨rfl, nofun⟩
  | readDmem a =>
    simp only [hostStep, hostReadDmem] at h
    split at h
    · cases h
    · split at h <;> cases h
      exact .inl ⟨rfl, nofun⟩
  | writeDmem a b =>
    simp only [hostStep, hostWriteDmem] at h
    split at h
    · cases h
    · split at h <;> cases h
      exact .inr (.inr (.inl ⟨a, b, rfl, by simpa using ‹¬ busy s = true›, ‹_›, rfl, rfl⟩))
  | reset => cases h; exact .inr (.inr (.inr ⟨rfl, rfl, rfl⟩))

/-- Settles O15: a host action reads, pushes into room, writes inside DMEM, or resets. -/
theorem hostKeepsInvariant : Obligations.HostKeepsInvariant := by
  intro act s t reply hs h
  rcases hostStep_cases h with ⟨rfl, -⟩ | ⟨w, -, hroom, rfl, -⟩ | ⟨a, b, -, -, ha, rfl, -⟩ | ⟨-, rfl, -⟩
  · exact hs
  · exact pushCmdq_inv hs w hroom
  · exact memWrite_inv hs (Nat.succ_le_of_lt ha)
  · exact resetOf_inv hs.paramsLegal _

/-! ## Which commands change a register, a flag or a storage -/

section
variable {i : Instr} {s t : State} (h : Writes s i t)
include h

theorem Writes.of_operandReg_ne {r : BitVec 4} (hr : r.toNat ≤ 4) (hne : readReg t r ≠ readReg s r) :
    ∃ half, i = .setlo r half ∨ i = .sethi r half := by
  cases h with
  | @operand _ rd _ _ _ _ _ _ hi ht =>
    by_cases hrd : r = rd
    · exact hrd ▸ hi
    · rw [← ht] at hne
      exact absurd (readReg_writeOperand_other s rd r _ hrd) hne
  | _ => refine (hne (readReg_operand_congr ?_ ?_ ?_ ?_ ?_ hr)).elim <;> rfl

theorem Writes.of_crcAcc_ne (hne : t.crcAcc ≠ s.crcAcc) : i = .crcInit ∨ i = .crcUpd ∨ ∃ b, i = .crcUpdb b := by
  cases h with
  | crc v hi => exact hi
  | _ => simp at hne

theorem Writes.of_palCount_ne (hne : t.palCount ≠ s.palCount ∨ t.palv ≠ s.palv) : i = .palLoad := by
  cases h with
  | palette => rfl
  | _ => simp at hne

theorem Writes.of_prev_ne (hne : t.rowCount ≠ s.rowCount ∨ t.prev ≠ s.prev) :
    i = .fltStart ∨ i = .fltDefilt ∨ i = .fltSel ∨ ∃ ft, i = .fltFilt ft := by
  cases h with
  | start => exact .inl rfl
  | row _ _ _ _ hi => exact hi.elim (.inr ∘ .inl) (.inr ∘ .inr ∘ .inr)
  | selected => exact .inr (.inr (.inl rfl))
  | _ => simp at hne

theorem Writes.of_lastf_ne (hne : t.lastf ≠ s.lastf) : i = .fltDefilt ∨ i = .fltSel ∨ ∃ ft, i = .fltFilt ft := by
  cases h with
  | row _ _ _ _ hi => exact hi.elim .inl (.inr ∘ .inr)
  | selected => exact .inr (.inl rfl)
  | _ => simp at hne

theorem Writes.of_score_ne (hne : t.scoreSub ≠ s.scoreSub ∨ t.scoreUp ≠ s.scoreUp ∨ t.scoreAvg ≠ s.scoreAvg ∨
    t.scorePaeth ≠ s.scorePaeth) : i = .fltSel := by
  cases h with
  | selected => rfl
  | _ => simp at hne

theorem Writes.of_pal_ne (hne : t.pal ≠ s.pal) : i = .palLoad ∨ i = .palTrns := by
  cases h with
  | palette => exact .inl rfl
  | alphas => exact .inr rfl
  | _ => simp at hne

theorem Writes.of_dmem_ne (hne : t.dmem ≠ s.dmem) : i = .crcStore ∨ i = .fltDefilt ∨ i = .fltSel ∨
    (∃ ft, i = .fltFilt ft) ∨ i = .pxcUnpack ∨ i = .pxcPack := by
  cases h with
  | row _ _ _ _ hi => exact hi.elim (.inr ∘ .inl) (.inr ∘ .inr ∘ .inr ∘ .inl)
  | selected => exact .inr (.inr (.inl rfl))
  | store _ _ hi => exact hi.elim .inl (.inr ∘ .inr ∘ .inr ∘ .inr)
  | _ => simp at hne

theorem Writes.of_latch_ne (hne : t.err ≠ s.err ∨ t.errCode ≠ s.errCode) : i = .clrerr ∨ EntersError i s t := by
  cases h with
  | error e he => exact .inr ⟨_, code_mem_writtenCodes he, _, rfl⟩
  | latch => exact .inl rfl
  | _ => simp at hne

theorem Writes.of_error_entered
    (hne : t.errCmd ≠ s.errCmd ∨ t.errInfo ≠ s.errInfo ∨ (s.err = false ∧ t.err = true)) : EntersError i s t := by
  cases h with
  | error e he => exact ⟨_, code_mem_writtenCodes he, _, rfl⟩
  | _ => simp_all

theorem Writes.of_err_cleared (hs : s.err = true) (ht : t.err = false) : i = .clrerr := by
  cases h with
  | latch => rfl
  | _ => simp_all

theorem Writes.frame : t.cmdq = s.cmdq ∧ t.params = s.params ∧ t.drawEpoch = s.drawEpoch := by
  cases h <;> exact ⟨rfl, rfl, rfl⟩

end

/-- Settles O56, clause by clause, from what a command may write. -/
theorem onlyNamedCommandsWriteState : Obligations.OnlyNamedCommandsWriteState := by
  intro i s t h
  have hw := exec_writes h
  exact ⟨fun r hr => hw.of_operandReg_ne hr, hw.of_crcAcc_ne, hw.of_palCount_ne, hw.of_prev_ne, hw.of_lastf_ne,
    hw.of_score_ne, hw.of_latch_ne, hw.of_error_entered, hw.of_err_cleared, hw.of_pal_ne, hw.of_dmem_ne,
    hw.frame⟩

/-! ## Views -/

/-- Settles O25: CRC_VAL is computed from CRC_ACC. -/
theorem crcValIsFinishedValue : Obligations.CrcValIsFinishedValue := by
  intro s
  rw [reg_crcVal, reg_crcAcc, crcVal, BitVec.toNat_xor, BitVec.toNat_ofNat]

/-- Settles O11: the register file by its 16 indices, the storages by their empty lists. -/
theorem resetValues : Obligations.ResetValues := by
  have hzero : ∀ i : Nat, i < 16 → i ≠ 5 → reg State.reset i = 0 := by decide
  exact ⟨hzero, rfl, rfl, fun _ => rfl, fun _ => rfl⟩

/-- Settles O55: STATUS is its fields one above the other, each at its power of 2. -/
theorem statusFieldsLayout : Obligations.StatusFieldsLayout := by
  intro s
  have herr : (if s.err then 1 else 0) = s.err.toNat := by cases s.err <;> rfl
  have hpalv : (if s.palv then 2 else 0) = 2 * s.palv.toNat := by cases s.palv <;> rfl
  have hbusy : (if s.cmdq = [] then 0 else 2 ^ 31) = 2 ^ 31 * (busy s).toNat := by
    unfold busy
    cases s.cmdq <;> rfl
  have hlastf : s.lastf.number % 2 ^ 3 = s.lastf.number := Nat.mod_eq_of_lt (by have := s.lastf.number_le; omega)
  rw [herr, hpalv, hbusy]
  show ((BitVec.ofBool (busy s) ++ 0#15 ++ s.errCode ++ 0#3 ++ BitVec.ofNat 3 s.lastf.number ++ BitVec.ofBool s.palv ++
    BitVec.ofBool s.err : BitVec (1 + 15 + 8 + 3 + 3 + 1 + 1))).toNat = _
  simp only [toNat_append_mul, BitVec.toNat_ofBool, BitVec.toNat_ofNat, hlastf]
  omega

/-! ## Palette entries at and above PAL_COUNT (10_state.md R31) -/

/-- A state with another palette. -/
def withPal (p : Palette) (s : State) : State := { s with pal := p }

theorem palEntry_withPal_congr {s t : State} (p : Palette) (he : t.drawEpoch = s.drawEpoch) (k : Nat) :
    palEntry (withPal p t) k = palEntry (withPal p s) k := by
  simp only [palEntry, withPal, he]

/-- The palette `p` reads like the state's own below PAL_COUNT. -/
def LoadedAlike (p : Palette) (s : State) : Prop :=
  ∀ k < s.palCount.toNat, palEntry (withPal p s) k = palEntry s k

/-- A pixel comes from an entry below PAL_COUNT, or from none (42_pixel.md R155). -/
theorem unpackPixel_withPal {s : State} {p : Palette} (hp : LoadedAlike p s) (m : ColorModel) (row : List Byte)
    (x : Nat) : unpackPixel m (withPal p s) row x = unpackPixel m s row x := by
  cases m with
  | palette =>
    simp only [unpackPixel]
    show (if s.palCount.toNat ≤ _ then _ else _) = _
    split
    · rfl
    · rw [hp _ (by omega)]
  | _ => rfl

theorem unpackFrom_withPal {s : State} {p : Palette} (hp : LoadedAlike p s) (m : ColorModel) (row : List Byte)
    (x k : Nat) : unpackFrom m (withPal p s) row x k = unpackFrom m s row x k := by
  induction k generalizing x with
  | zero => rfl
  | succ k ih => simp only [unpackFrom, unpackPixel_withPal hp, ih]

/-- PAL.TRNS keeps the colors of entries below PAL_COUNT alone (42_pixel.md R153). -/
theorem transparentOf_withPal {s : State} {p : Palette} (hp : LoadedAlike p s) (alphas : List Byte) {k : Nat}
    (hk : k ≤ s.palCount.toNat) : transparentOf (withPal p s) alphas k = transparentOf s alphas k :=
  List.map_congr_left fun i hi => by rw [hp i ((List.mem_range.1 hi).trans_le hk)]

/-- Palettes with the same entries stored in them read alike where these are, and elsewhere as they did before. -/
theorem loadedAlike_storePal {s t : State} {p : Palette} {es : List Rgba} (hpal : t.pal = (storePal s es).pal)
    (hepoch : t.drawEpoch = s.drawEpoch)
    (hk : ∀ k < t.palCount.toNat, k < es.length ∨ palEntry (withPal p s) k = palEntry s k) :
    LoadedAlike (storePal (withPal p s) es).pal t := by
  intro k hlt
  calc palEntry (withPal (storePal (withPal p s) es).pal t) k
      = palEntry (storePal (withPal p s) es) k := palEntry_withPal_congr _ hepoch k
    _ = palEntry (storePal s es) k := by
      rw [palEntry_storePal, palEntry_storePal]
      rcases hk k hlt with h | h
      · simp [h]
      · rw [h]
    _ = palEntry t k := (palEntry_congr hpal hepoch k).symm

theorem LoadedAlike.congr {s t : State} {p : Palette} (hp : LoadedAlike p s) (hpal : t.pal = s.pal)
    (hcount : t.palCount = s.palCount) (hepoch : t.drawEpoch = s.drawEpoch) : LoadedAlike p t := by
  intro k hk
  calc palEntry (withPal p t) k
      = palEntry (withPal p s) k := palEntry_withPal_congr p hepoch k
    _ = palEntry s k := hp k (hcount ▸ hk)
    _ = palEntry t k := (palEntry_congr hpal hepoch k).symm

/-- The commands that write no palette do the same under two palettes that read alike below PAL_COUNT. -/
theorem effectOf_withPal {i : Instr} (hload : i ≠ .palLoad) (htrns : i ≠ .palTrns) {s : State} {p : Palette}
    (hp : LoadedAlike p s) : effectOf i (withPal p s) = withPal p <$> effectOf i s := by
  have hreg : ∀ (rd : BitVec 4) (v : Word), writeOperand (withPal p s) rd v = withPal p (writeOperand s rd v) := by
    intro rd v
    unfold writeOperand
    split <;> rfl
  cases i with
  | palLoad => exact absurd rfl hload
  | palTrns => exact absurd rfl htrns
  | nop | clrerr | crcInit | crcUpdb | fltStart => rfl
  | setlo rd half =>
    simp only [effectOf, setloEffect, map_bind, map_pure, hreg]
    rfl
  | sethi rd half =>
    simp only [effectOf, sethiEffect, map_bind, map_pure, hreg]
    rfl
  | crcUpd => simp only [effectOf, crcUpdEffect, map_bind, map_pure]; rfl
  | crcCheck => simp only [effectOf, crcCheckEffect, map_bind, map_pure, apply_ite]; rfl
  | crcStore => simp only [effectOf, crcStoreEffect, map_bind, map_pure]; rfl
  | fltDefilt => simp only [effectOf, fltDefiltEffect, map_bind, map_pure]; rfl
  | fltFilt ft => simp only [effectOf, fltFiltEffect, map_bind, map_pure]; rfl
  | fltSel => simp only [effectOf, fltSelEffect, map_bind, map_pure]; rfl
  | fltChklen => simp only [effectOf, fltChklenEffect, map_bind, map_pure, apply_ite]; rfl
  | pxcUnpack => simp only [effectOf, pxcUnpackEffect, map_bind, map_pure, unpackFrom_withPal hp]; rfl
  | pxcPack => simp only [effectOf, pxcPackEffect, map_bind, map_pure]; rfl

/-- PAL.LOAD does the same over any palette but for the palette it stores in. -/
theorem palLoadEffect_withPal (s : State) (p : Palette) :
    palLoadEffect (withPal p s) =
      withPal (storePal (withPal p s) (paletteOf (memRead s s.src.toNat s.len.toNat) (min (s.len.toNat / 3) 256))).pal
        <$> palLoadEffect s := by
  unfold palLoadEffect
  by_cases hlen : s.len.toNat % 3 ≠ 0
  · rw [if_pos hlen, if_pos (show (withPal p s).len.toNat % 3 ≠ 0 from hlen)]
    rfl
  · rw [if_neg hlen, if_neg (show ¬ (withPal p s).len.toNat % 3 ≠ 0 from hlen)]
    simp only [map_bind, map_pure]
    rfl

/-- PAL.TRNS stores the same entries over two palettes that read alike below PAL_COUNT. -/
theorem palTrnsEffect_withPal {s : State} {p : Palette} (hp : LoadedAlike p s) (hv : s.palv = true) :
    palTrnsEffect (withPal p s) =
      withPal (storePal (withPal p s)
        (transparentOf s (memRead s s.src.toNat s.len.toNat) (min s.len.toNat s.palCount.toNat))).pal
        <$> palTrnsEffect s := by
  have hv' : (withPal p s).palv = true := hv
  have hes := transparentOf_withPal hp (memRead s s.src.toNat s.len.toNat) (Nat.min_le_right s.len.toNat _)
  simp only [palTrnsEffect, hv, hv', if_true, map_bind, map_pure]
  rw [← hes]
  rfl

/-- PAL.TRNS with no palette loaded stores nothing. -/
theorem palTrnsEffect_withPal_of_not_palv {s : State} {p : Palette} (hv : s.palv = false) :
    palTrnsEffect (withPal p s) = withPal p <$> palTrnsEffect s := by
  have hv' : (withPal p s).palv = false := hv
  simp only [palTrnsEffect, hv, hv', Bool.false_eq_true, if_false, map_bind, map_pure]
  rfl

/-- Under two palettes that read alike below PAL_COUNT a command raises the same error, or answers the same state but
for palettes that read alike below its PAL_COUNT. -/
theorem effectOf_loadedAlike (i : Instr) {s : State} {p : Palette} (hp : LoadedAlike p s) :
    ∃ q, effectOf i (withPal p s) = withPal q <$> effectOf i s ∧ ∀ t, effectOf i s = .ok t → LoadedAlike q t := by
  by_cases hload : i = .palLoad
  · subst hload
    refine ⟨_, palLoadEffect_withPal s p, fun t ht => ?_⟩
    obtain ⟨-, -, rfl⟩ := (palLoadEffect_eq_ok ..).1 ht
    refine loadedAlike_storePal rfl rfl fun k hk => .inl ?_
    rw [length_paletteOf]
    exact hk.trans_le (Nat.mod_le _ _)
  by_cases htrns : i = .palTrns
  · subst htrns
    cases hv : s.palv with
    | true =>
      refine ⟨_, palTrnsEffect_withPal hp hv, fun t ht => ?_⟩
      obtain ⟨-, rfl⟩ := (palTrnsEffect_eq_ok ..).1 ht
      rw [if_pos hv]
      exact loadedAlike_storePal rfl rfl fun k hk => .inr (hp k hk)
    | false =>
      refine ⟨_, palTrnsEffect_withPal_of_not_palv hv, fun t ht => ?_⟩
      obtain ⟨-, rfl⟩ := (palTrnsEffect_eq_ok ..).1 ht
      rwa [if_neg (by simp [hv])]
  · refine ⟨p, effectOf_withPal hload htrns hp, fun t ht => ?_⟩
    have hw := effectOf_writes ht
    have hpal : t.pal = s.pal := by_contra fun hne => (hw.of_pal_ne hne).elim hload htrns
    have hcount : t.palCount = s.palCount := by_contra fun hne => hload (hw.of_palCount_ne (.inl hne))
    exact hp.congr hpal hcount hw.frame.2.2

/-- Every command ends alike under two palettes that read alike below PAL_COUNT. -/
theorem exec_withPal {i : Instr} {s t : State} {p : Palette} (hp : LoadedAlike p s) (h : exec i s = .next t) :
    ∃ q, exec i (withPal p s) = .next (withPal q t) ∧ LoadedAlike q t := by
  obtain ⟨q, heffect, hq⟩ := effectOf_loadedAlike i hp
  rcases exec_cases h with hok | ⟨e, he, rfl⟩
  · rw [hok] at heffect
    exact ⟨q, exec_of_ok heffect, hq t hok⟩
  · rw [he] at heffect
    exact ⟨p, exec_of_error heffect, hp⟩

/-- Settles O50: the entries at and above PAL_COUNT are the palette a command may be given another of. -/
theorem unloadedPaletteEntriesUnobservable : Obligations.UnloadedPaletteEntriesUnobservable := by
  intro i s t pal' h hp
  obtain ⟨q, hexec, hq⟩ := exec_withPal hp h
  exact ⟨withPal q t, hexec, rfl, hq⟩

end Sys2Proof.Machine

/-! PROOFS. Runs and the host's port (20_memory.md R50, R60, R61), and the DMEM range of every command (R51). -/

namespace Sys2Proof.Machine

open Sys2Proof.Claims

/-! ## Runs from a reset (20_memory.md R61) -/

/-- No step changes the parameters (00_scope.md R6). -/
theorem step_params {s t : State} (h : step s = .next t) : t.params = s.params := by
  rcases step_cases s with ⟨-, hstep⟩ | ⟨w, rest, -, ⟨-, hstep⟩ | ⟨-, -, hstep⟩ | ⟨-, i, -, hstep⟩⟩ <;>
    rw [hstep] at h
  · cases h
    rfl
  · cases h
    rfl
  · cases h
    rfl
  · obtain ⟨-, hparams, -⟩ := (exec_writes h).frame
    exact hparams

/-- No host action changes the parameters, reset among them. -/
theorem hostStep_params {act : HostAction} {s t : State} {reply : HostReply} (h : hostStep act s = .next (t, reply)) :
    t.params = s.params := by
  rcases hostStep_cases h with ⟨rfl, -⟩ | ⟨w, -, -, rfl, -⟩ | ⟨a, b, -, -, -, rfl, -⟩ | ⟨-, rfl, -⟩ <;> rfl

/-- Settles O16: the invariant and the parameters hold at reset, and every step and every host action keeps them. -/
theorem reachableStatesMeetInvariant : Obligations.ReachableStatesMeetInvariant := by
  intro p s hp hs
  induction hs with
  | reset epoch => exact ⟨resetOf_inv hp epoch, rfl⟩
  | sequencer _ _ hstep ih => exact ⟨stepKeepsInvariant _ _ ih.1 hstep, (step_params hstep).trans ih.2⟩
  | host _ hact ih => exact ⟨hostKeepsInvariant _ _ _ _ ih.1 hact, (hostStep_params hact).trans ih.2⟩

/-! ## The host's port (20_memory.md R50, R60) -/

/-- BUSY is 1 exactly while CMDQ holds a word (10_state.md R29). -/
theorem busy_eq_false (s : State) : busy s = false ↔ s.cmdq = [] := by simp [busy]

/-- BUSY as the host sees it: bit 31 of STATUS, above every other field. -/
theorem two_pow_31_le_status (s : State) : 2 ^ 31 ≤ reg s 7 ↔ busy s = true := by
  have hlayout := statusFieldsLayout s
  have hlow : (if s.err then 1 else 0) + (if s.palv then 2 else 0) + 4 * s.lastf.number + 2 ^ 8 * s.errCode.toNat
      < 2 ^ 31 := by
    have hlastf := s.lastf.number_le
    have hcode := s.errCode.isLt
    split <;> split <;> omega
  by_cases hq : s.cmdq = []
  · rw [if_pos hq] at hlayout
    exact iff_of_false (by omega) (by simp [(busy_eq_false s).2 hq])
  · rw [if_neg hq] at hlayout
    exact iff_of_true (by omega) (by simpa using mt (busy_eq_false s).1 hq)

/-- Settles O51: the one test of a push is whether CMDQ has room. -/
theorem hostPushAppends : Obligations.HostPushAppends := by
  intro s w
  constructor
  · intro hroom
    have hbusy : busy (pushCmdq s w) = true := by simp [busy]
    exact ⟨pushCmdq s w, if_pos hroom, rfl, (two_pow_31_le_status _).2 hbusy⟩
  · intro hfull
    exact if_neg hfull.not_gt

/-- Settles O53: bit 31 of STATUS is the BUSY that the host's port tests. -/
theorem busyBlocksHostAccess : Obligations.BusyBlocksHostAccess := by
  intro s
  refine ⟨rfl, ?_, ?_⟩
  · intro hstatus a b i hi
    have hbusy := (two_pow_31_le_status s).1 hstatus
    exact ⟨if_pos hbusy, if_pos hbusy, if_pos ⟨hbusy, hi⟩⟩
  · intro hstatus i
    have hidle : ¬ busy s = true := fun hbusy => hstatus.not_ge ((two_pow_31_le_status s).2 hbusy)
    exact if_neg fun h => hidle h.1

/-- What the host's read and write of a DMEM byte answer in an idle block. -/
theorem hostDmem_of_idle {s : State} {a : Nat} (hidle : s.cmdq = []) (ha : a < s.params.dmemSize) :
    hostStep (.readDmem a) s = .next (s, .byte (dmemByte s a)) ∧
      ∀ b, hostStep (.writeDmem a b) s = .next (memWrite s a [b], .done) := by
  have hbusy := (busy_eq_false s).2 hidle
  constructor
  · simp [hostStep, hostReadDmem, hbusy, ha]
  · intro b
    simp [hostStep, hostWriteDmem, hbusy, ha]

/-- Settles O54: the written byte is read back, and a write of one byte is no write elsewhere. -/
theorem hostDmemReadsLastWrite : Obligations.HostDmemReadsLastWrite := by
  intro s a b hidle ha
  have hwritten : dmemByte (memWrite s a [b]) a = b := dmemByte_memWrite_inside s a [b] 0 Nat.one_pos
  have hread := (hostDmem_of_idle (s := memWrite s a [b]) hidle ha).1
  rw [hwritten] at hread
  exact ⟨memWrite s a [b], (hostDmem_of_idle hidle ha).2 b, rfl, hread, dmemByte_memWrite_outside s a [b]⟩

/-! ## The DMEM range of every command (20_memory.md R51) -/

/-- A state with another DMEM. -/
def withDmem (m : Memory) (s : State) : State := { s with dmem := m }

/-- The memory `m` reads like the state's own in the read range of a command. -/
def ReadsAlike (i : Instr) (m : Memory) (s : State) : Prop :=
  ∀ a, InRange (readRange i s) a → dmemByte (withDmem m s) a = dmemByte s a

/-- Every read range starts at SRC (20_memory.md R51). -/
theorem ReadsAlike.memRead_src {i : Instr} {m : Memory} {s : State} (h : ReadsAlike i m s) {n : Nat}
    (hr : readRange i s = (reg s 0, n)) :
    memRead (withDmem m s) (withDmem m s).src.toNat n = memRead s s.src.toNat n :=
  memRead_congr fun k hk => h (s.src.toNat + k) (by rw [hr]; exact ⟨Nat.le_add_right _ k, Nat.add_lt_add_left hk _⟩)

/-- How the effect of a command ends over its own DMEM and over `m`: both raise the same, or both keep their DMEM, or
both store the same bytes, which fill the write range, from DST. The answers differ in DMEM alone. -/
inductive EndsAlike (i : Instr) (m : Memory) (s : State) : Except Raise State → Except Raise State → Prop where
  | raised (e : Raise) : EndsAlike i m s (.error e) (.error e)
  | kept {t : State} (ht : t.dmem = s.dmem) : EndsAlike i m s (.ok t) (.ok (withDmem m t))
  | stored {t : State} (bytes : List Byte) (hr : writeRange i s = (reg s 1, bytes.length))
      (ht : t.dmem = (memWrite s s.dst.toNat bytes).dmem) :
      EndsAlike i m s (.ok t) (.ok (withDmem (memWrite (withDmem m s) s.dst.toNat bytes).dmem t))

/-- A part that both runs share either raises in both, or leaves the rest of both to end alike. -/
theorem EndsAlike.bind {α : Type} {i : Instr} {m : Memory} {s : State} {x : Except Raise α}
    {f g : α → Except Raise State} (h : ∀ a, x = .ok a → EndsAlike i m s (f a) (g a)) :
    EndsAlike i m s (x >>= f) (x >>= g) := by
  cases x with
  | error e => exact .raised e
  | ok a => exact h a rfl

/-- The pixels of a row depend on DMEM through the row alone (42_pixel.md R155). -/
theorem unpackFrom_withDmem (cm : ColorModel) (m : Memory) (s : State) (row : List Byte) (x k : Nat) :
    unpackFrom cm (withDmem m s) row x k = unpackFrom cm s row x k := by
  have hpixel : ∀ x, unpackPixel cm (withDmem m s) row x = unpackPixel cm s row x := by
    intro x
    cases cm <;> rfl
  induction k generalizing x with
  | zero => rfl
  | succ k ih => simp only [unpackFrom, hpixel, ih]

theorem writeOperand_withDmem (m : Memory) (s : State) (rd : BitVec 4) (v : Word) :
    writeOperand (withDmem m s) rd v = withDmem m (writeOperand s rd v) := by
  unfold writeOperand
  split <;> rfl

theorem writeOperand_dmem (s : State) (rd : BitVec 4) (v : Word) : (writeOperand s rd v).dmem = s.dmem := by
  obtain ⟨_, _, _, _, _, h⟩ := writeOperand_eq s rd v
  rw [h]

/-- ROWB as the statements' vocabulary computes it, once the row prologue has passed (41_filter.md R130). -/
theorem rowLen_of_rowPrologue {s : State} {bpp : Nat} (h : rowPrologue s = .ok bpp) : rowLen s = rowBytes s bpp := by
  obtain ⟨hbpp, -⟩ := (rowPrologue_eq_ok ..).1 h
  exact rowLen_eq hbpp

/-- Over a DMEM that reads alike in its read range a command ends alike: its checks and its result see DMEM through
that one read. -/
theorem effectOf_endsAlike {i : Instr} {m : Memory} {s : State} (hm : ReadsAlike i m s) :
    EndsAlike i m s (effectOf i s) (effectOf i (withDmem m s)) := by
  cases i with
  | nop | clrerr | crcInit | crcUpdb | fltStart => exact .kept rfl
  | setlo rd half | sethi rd half =>
    refine .bind fun _ _ => ?_
    rw [writeOperand_withDmem]
    exact .kept (writeOperand_dmem ..)
  | crcUpd =>
    refine .bind fun _ _ => ?_
    rw [hm.memRead_src]
    · exact .kept rfl
    · rfl
  | crcCheck =>
    refine .bind fun _ _ => ?_
    rw [hm.memRead_src rfl]
    show EndsAlike _ _ _ (if be32 (memRead s s.src.toNat 4) = crcVal s then _ else _)
      (if be32 (memRead s s.src.toNat 4) = crcVal s then _ else _)
    split
    · exact .kept rfl
    · exact .raised _
  | crcStore => exact .bind fun _ _ => .stored (beBytes (crcVal s)) rfl rfl
  | fltDefilt =>
    refine .bind fun bpp hrow => .bind fun _ _ => .bind fun _ _ => ?_
    have hlen := rowLen_of_rowPrologue hrow
    rw [hm.memRead_src]
    · refine .bind fun t _ => .stored (defilterBytes t bpp (prevRow s (rowBytes s bpp))
        (memRead s s.src.toNat (1 + rowBytes s bpp)).tail) ?_ rfl
      simp [writeRange, hlen, length_defilterBytes]
    · rw [readRange, hlen]
      rfl
  | fltFilt ft =>
    refine .bind fun t _ => .bind fun bpp hrow => .bind fun _ _ => .bind fun _ _ => ?_
    have hlen := rowLen_of_rowPrologue hrow
    rw [hm.memRead_src]
    · refine .stored (taggedRow t bpp (prevRow s (rowBytes s bpp)) (memRead s s.src.toNat (rowBytes s bpp))) ?_ rfl
      simp [writeRange, hlen, length_taggedRow]
    · rw [readRange, hlen]
      rfl
  | fltSel =>
    refine .bind fun bpp hrow => .bind fun _ _ => .bind fun _ _ => ?_
    have hlen := rowLen_of_rowPrologue hrow
    rw [hm.memRead_src]
    · refine .stored (taggedRow _ bpp (prevRow s (rowBytes s bpp)) (memRead s s.src.toNat (rowBytes s bpp))) ?_ rfl
      simp [writeRange, hlen, length_taggedRow]
    · rw [readRange, hlen]
      rfl
  | fltChklen =>
    refine .bind fun bpp _ => ?_
    show EndsAlike _ _ _ _ (if s.len.toNat % (1 + rowBytes s bpp) = 0 then _ else _)
    split
    · exact .kept rfl
    · exact .raised _
  | palLoad =>
    show EndsAlike _ _ _ (if s.len.toNat % 3 ≠ 0 then _ else _) (if s.len.toNat % 3 ≠ 0 then _ else _)
    split
    · exact .raised _
    · refine .bind fun _ _ => ?_
      rw [hm.memRead_src]
      · exact .kept rfl
      · rfl
  | palTrns =>
    refine .bind fun _ _ => ?_
    rw [hm.memRead_src]
    · show EndsAlike _ _ _ _ (if s.palv = true then _ else _)
      split
      · exact .kept rfl
      · exact .kept rfl
    · rfl
  | pxcUnpack =>
    refine .bind fun cm hcm => .bind fun _ _ => .bind fun _ _ => ?_
    have hlen := rowLen_eq ((bytesPerPixel_eq_ok ..).2 ⟨cm, hcm, rfl⟩)
    rw [hm.memRead_src, unpackFrom_withDmem]
    · refine .bind fun ps hps => .stored (pixelBytes ps) ?_ rfl
      obtain ⟨hcount, -⟩ := (unpackFrom_eq_ok ..).1 hps
      rw [length_pixelBytes, hcount]
      rfl
    · rw [readRange, hlen]
      rfl
  | pxcPack =>
    refine .bind fun _ _ => .bind fun _ _ => ?_
    rw [hm.memRead_src]
    · refine .stored (memRead s s.src.toNat (4 * s.width.toNat)) ?_ rfl
      rw [length_memRead]
      rfl
    · rfl

/-- A command whose effect ends alike answers the same state but for DMEM, which both runs keep, or in which both store
the same bytes. -/
theorem EndsAlike.answers {i : Instr} {m : Memory} {s t : State} {x y : Except Raise State} (hxy : EndsAlike i m s x y)
    (h : settle i s x = .next t) :
    ∃ m', settle i (withDmem m s) y = .next (withDmem m' t) ∧
      ((t.dmem = s.dmem ∧ m' = m) ∨
        ∃ bytes, writeRange i s = (reg s 1, bytes.length) ∧ t.dmem = (memWrite s s.dst.toNat bytes).dmem ∧
          m' = (memWrite (withDmem m s) s.dst.toNat bytes).dmem) := by
  cases hxy with
  | raised e => cases h; exact ⟨m, rfl, .inl ⟨rfl, rfl⟩⟩
  | kept ht => cases h; exact ⟨m, rfl, .inl ⟨ht, rfl⟩⟩
  | stored bytes hr ht => cases h; exact ⟨_, rfl, .inr ⟨bytes, hr, ht, rfl⟩⟩

/-- A state whose DMEM is that of `u` with the write range filled by `bytes` reads as the bytes inside the range, and
like `u` outside it. -/
theorem dmemByte_of_filled {i : Instr} {s t u : State} {bytes : List Byte}
    (hr : writeRange i s = (reg s 1, bytes.length)) (ht : t.dmem = (memWrite u s.dst.toNat bytes).dmem)
    (he : t.drawEpoch = u.drawEpoch) (a : Nat) :
    (InRange (writeRange i s) a → dmemByte t a = bytes.getD (a - s.dst.toNat) 0) ∧
      (¬ InRange (writeRange i s) a → dmemByte t a = dmemByte u a) := by
  rw [hr, dmemByte_congr (s := memWrite u s.dst.toNat bytes) ht he, dmemByte_memWrite]
  exact ⟨fun h => if_pos h, fun h => if_neg h⟩

/-- Settles O57: a command reads DMEM through its read range alone, and stores nothing or just its write range. -/
theorem commandsTouchOnlyTheirRanges : Obligations.CommandsTouchOnlyTheirRanges := by
  intro i s t h
  obtain ⟨-, -, hepoch⟩ := (exec_writes h).frame
  rw [exec_eq_settle] at h
  constructor
  · intro a ha
    obtain ⟨-, -, ⟨hkept, -⟩ | ⟨bytes, hr, hstored, -⟩⟩ :=
      (effectOf_endsAlike (m := s.dmem) fun _ _ => rfl).answers h
    · exact dmemByte_congr hkept hepoch a
    · exact (dmemByte_of_filled hr hstored hepoch a).2 ha
  · intro m hm
    obtain ⟨m', hexec, hends⟩ := (effectOf_endsAlike hm).answers h
    refine ⟨withDmem m' t, (exec_eq_settle ..).trans hexec, rfl, ?_⟩
    obtain hkept | ⟨bytes, hr, hstored, rfl⟩ := hends
    · exact .inl hkept
    · refine .inr fun a ha => ?_
      rw [(dmemByte_of_filled hr hstored hepoch a).1 ha]
      exact (dmemByte_of_filled (t := withDmem _ t) (u := withDmem m s) hr rfl hepoch a).1 ha

end Sys2Proof.Machine

/-! PROOFS. The encoding (30_encoding.md): decode and encode as inverses, one round trip per format, the legal words of
R76, the assembler's output (R81) and the two commands of `li` (R82). -/

namespace Sys2Proof

open Sys2Proof.Claims

/-! ## The fields of an encoded word (30_encoding.md R70 to R74) -/

@[simp] theorem opField_encodeS (op : BitVec 8) (rd : BitVec 4) (imm16 : BitVec 16) :
    opField (encodeS op rd imm16) = op := by
  apply BitVec.eq_of_toNat_eq
  rw [toNat_opField, toNat_encodeS]
  omega

@[simp] theorem opField_encodeB (op : BitVec 8) (imm8 : Byte) : opField (encodeB op imm8) = op := by
  apply BitVec.eq_of_toNat_eq
  rw [toNat_opField, toNat_encodeB]
  omega

@[simp] theorem opField_encodeF (op : BitVec 8) (ft : BitVec 3) : opField (encodeF op ft) = op := by
  apply BitVec.eq_of_toNat_eq
  rw [toNat_opField, toNat_encodeF]
  omega

@[simp] theorem rdField_encodeS (op : BitVec 8) (rd : BitVec 4) (imm16 : BitVec 16) :
    rdField (encodeS op rd imm16) = rd := by
  apply BitVec.eq_of_toNat_eq
  rw [toNat_rdField, toNat_encodeS]
  omega

@[simp] theorem imm16Field_encodeS (op : BitVec 8) (rd : BitVec 4) (imm16 : BitVec 16) :
    imm16Field (encodeS op rd imm16) = imm16 := by
  apply BitVec.eq_of_toNat_eq
  rw [toNat_imm16Field, toNat_encodeS]
  omega

@[simp] theorem imm8Field_encodeB (op : BitVec 8) (imm8 : Byte) : imm8Field (encodeB op imm8) = imm8 := by
  apply BitVec.eq_of_toNat_eq
  rw [toNat_imm8Field, toNat_encodeB]
  omega

@[simp] theorem ftField_encodeF (op : BitVec 8) (ft : BitVec 3) : ftField (encodeF op ft) = ft := by
  apply BitVec.eq_of_toNat_eq
  rw [toNat_ftField, toNat_encodeF]
  omega

/-! ## From a command to its word and back -/

/-- Format S (R72) loses no operand: the fields of the word are RD and IMM16, and its bits [23:20] are 0. -/
theorem decodeS_encodeS (mk : BitVec 4 → BitVec 16 → Instr) (op : BitVec 8) {rd : BitVec 4} (imm16 : BitVec 16)
    (hrd : rd.toNat ≤ 4) : decodeS mk (encodeS op rd imm16) = .ok (mk rd imm16) := by
  rw [decodeS_eq_ok, rdField_encodeS, imm16Field_encodeS, toNat_encodeS]
  exact ⟨by omega, hrd, rfl⟩

/-- Format B (R73) loses no operand. -/
theorem decodeB_encodeB (mk : Byte → Instr) (op : BitVec 8) (imm8 : Byte) :
    decodeB mk (encodeB op imm8) = .ok (mk imm8) := by
  rw [decodeB_eq_ok, imm8Field_encodeB, toNat_encodeB]
  exact ⟨by omega, rfl⟩

/-- Format F (R74) loses no operand. -/
theorem decodeF_encodeF (mk : BitVec 3 → Instr) (op : BitVec 8) {ft : BitVec 3} (hft : ft.toNat ≤ 4) :
    decodeF mk (encodeF op ft) = .ok (mk ft) := by
  rw [decodeF_eq_ok, ftField_encodeF, toNat_encodeF]
  exact ⟨by omega, hft, rfl⟩

/-- Settles O2: the opcode of the word selects the command's own format (R75), which gives the operands back. The
commands of format Z have one word each. -/
theorem decodeOfEncode : Obligations.DecodeOfEncode := by
  intro i hwf
  cases i with
  | setlo rd imm16 =>
    simp only [encode, decode, opField_encodeS]
    exact decodeS_encodeS .setlo 0x02#8 imm16 (of_decide_eq_true hwf)
  | sethi rd imm16 =>
    simp only [encode, decode, opField_encodeS]
    exact decodeS_encodeS .sethi 0x03#8 imm16 (of_decide_eq_true hwf)
  | crcUpdb imm8 =>
    simp only [encode, decode, opField_encodeB]
    exact decodeB_encodeB .crcUpdb 0x12#8 imm8
  | fltFilt ft =>
    simp only [encode, decode, opField_encodeF]
    exact decodeF_encodeF .fltFilt 0x22#8 (of_decide_eq_true hwf)
  | nop | clrerr | crcInit | crcUpd | crcCheck | crcStore | fltStart | fltDefilt | fltSel | fltChklen | palLoad
  | palTrns | pxcUnpack | pxcPack => rfl

/-! ## From a word to its command and back -/

/-- The word is the encoding of its fields, when the bits its format requires to be 0 are 0 (R71 to R74). -/
theorem encodeZ_opField {w : Word} (h : w.toNat % 2 ^ 24 = 0) : encodeZ (opField w) = w := by
  apply BitVec.eq_of_toNat_eq
  rw [toNat_encodeZ, toNat_opField]
  omega

theorem encodeS_fields {w : Word} (h : w.toNat / 2 ^ 20 % 16 = 0) :
    encodeS (opField w) (rdField w) (imm16Field w) = w := by
  apply BitVec.eq_of_toNat_eq
  rw [toNat_encodeS, toNat_opField, toNat_rdField, toNat_imm16Field]
  omega

theorem encodeB_fields {w : Word} (h : w.toNat / 2 ^ 8 % 2 ^ 16 = 0) : encodeB (opField w) (imm8Field w) = w := by
  apply BitVec.eq_of_toNat_eq
  rw [toNat_encodeB, toNat_opField, toNat_imm8Field]
  omega

theorem encodeF_fields {w : Word} (h : w.toNat / 2 ^ 3 % 2 ^ 21 = 0) : encodeF (opField w) (ftField w) = w := by
  apply BitVec.eq_of_toNat_eq
  rw [toNat_encodeF, toNat_opField, toNat_ftField]
  omega

/-- The decoder by the format its opcode selects (R75): the opcodes of each format, and that the commands the format
makes encode to that opcode, well formed as R76 asks of their operand. -/
inductive DecodesBy (w : Word) : Except IllegalWord Instr → Prop where
  /-- The fourteen commands with no operand (R71). -/
  | formatZ {op : Nat} {i : Instr} (hop : (opField w).toNat = op)
      (hmem : op ∈ [0x00, 0x01, 0x10, 0x11, 0x13, 0x14, 0x20, 0x21, 0x23, 0x24, 0x30, 0x31, 0x32, 0x33])
      (hwf : i.wellFormed = true) (henc : encode i = encodeZ (BitVec.ofNat 8 op)) : DecodesBy w (decodeZ i w)
  /-- SETLO and SETHI (R72). -/
  | formatS {op : Nat} {mk : BitVec 4 → BitVec 16 → Instr} (hop : (opField w).toNat = op) (hmem : op ∈ [0x02, 0x03])
      (hwf : ∀ rd imm16, (mk rd imm16).wellFormed = decide (rd.toNat ≤ 4))
      (henc : ∀ rd imm16, encode (mk rd imm16) = encodeS (BitVec.ofNat 8 op) rd imm16) : DecodesBy w (decodeS mk w)
  /-- CRC.UPDB (R73). -/
  | formatB (hop : (opField w).toNat = 0x12) : DecodesBy w (decodeB .crcUpdb w)
  /-- FLT.FILT (R74). -/
  | formatF (hop : (opField w).toNat = 0x22) : DecodesBy w (decodeF .fltFilt w)
  /-- An opcode that is not in the map (R76 item 1). -/
  | unassigned
      (hop : (opField w).toNat ∉ [0x00, 0x01, 0x02, 0x03, 0x10, 0x11, 0x12, 0x13, 0x14, 0x20, 0x21, 0x22, 0x23, 0x24,
        0x30, 0x31, 0x32, 0x33]) : DecodesBy w (.error .unassignedOp)

/-- One inversion for the decoder, by format. -/
theorem decode_decodesBy (w : Word) : DecodesBy w (decode w) := by
  unfold decode
  split
  case h_1 hop | h_2 hop | h_5 hop | h_6 hop | h_8 hop | h_9 hop | h_10 hop | h_11 hop | h_13 hop | h_14 hop
    | h_15 hop | h_16 hop | h_17 hop | h_18 hop => exact .formatZ hop (by decide) rfl rfl
  case h_3 hop | h_4 hop => exact .formatS hop (by decide) (fun _ _ => rfl) (fun _ _ => rfl)
  case h_7 hop => exact .formatB hop
  case h_12 hop => exact .formatF hop
  case h_19 => exact .unassigned (by simp_all)

/-- The opcode field from its value as a number. -/
theorem ofNat_of_toNat_opField {w : Word} {op : Nat} (hop : (opField w).toNat = op) :
    BitVec.ofNat 8 op = opField w := by
  rw [← hop, BitVec.ofNat_toNat, BitVec.setWidth_eq]

/-- Settles O3: each format's decoder keeps every bit of the word, in a field or as a 0 it has tested. -/
theorem encodeOfDecode : Obligations.EncodeOfDecode := by
  intro w i h
  have hformat := decode_decodesBy w
  generalize decode w = answer at h hformat
  cases hformat with
  | formatZ hop _ hwf henc =>
    obtain ⟨hzero, rfl⟩ := (decodeZ_eq_ok ..).1 h
    exact ⟨hwf, by rw [henc, ofNat_of_toNat_opField hop, encodeZ_opField hzero]⟩
  | formatS hop _ hwf henc =>
    obtain ⟨hzero, hrd, rfl⟩ := (decodeS_eq_ok ..).1 h
    exact ⟨by simp [hwf, hrd], by rw [henc, ofNat_of_toNat_opField hop, encodeS_fields hzero]⟩
  | formatB hop =>
    obtain ⟨hzero, rfl⟩ := (decodeB_eq_ok ..).1 h
    exact ⟨rfl, by rw [encode, ofNat_of_toNat_opField hop, encodeB_fields hzero]⟩
  | formatF hop =>
    obtain ⟨hzero, hft, rfl⟩ := (decodeF_eq_ok ..).1 h
    exact ⟨decide_eq_true hft, by rw [encode, ofNat_of_toNat_opField hop, encodeF_fields hzero]⟩
  | unassigned => cases h

/-! ## Legal words (30_encoding.md R76) -/

/-- Exactly the words of R76's pseudocode decode: each format's zero bits and operand bound are its line there. -/
theorem exists_decode_eq_ok_iff (w : Word) : (∃ i, decode w = .ok i) ↔ LegalWord w.toNat := by
  have hformat := decode_decodesBy w
  generalize decode w = answer at hformat
  unfold LegalWord
  rw [← toNat_opField, ← toNat_rdField, ← toNat_ftField]
  cases hformat with
  | @formatZ op _ hop hmem =>
    have hothers : op ∉ [0x02, 0x03] ∧ op ≠ 0x12 ∧ op ≠ 0x22 := by
      simp only [List.mem_cons, List.not_mem_nil, or_false] at hmem ⊢
      omega
    simp [decodeZ_eq_ok, hop, hmem, hothers, -List.mem_cons]
  | formatS hop hmem =>
    simp only [List.mem_cons, List.not_mem_nil, or_false] at hmem
    rcases hmem with rfl | rfl <;> simp [decodeS_eq_ok, hop]
  | formatB hop => simp [decodeB_eq_ok, hop]
  | formatF hop => simp [decodeF_eq_ok, hop]
  | unassigned hop => simp_all

end Sys2Proof

namespace Sys2Proof.Machine

open Sys2Proof.Claims

/-- An illegal word at CMDQ's head outside the error state: error entry with the word, on the state without it. -/
theorem step_of_illegalWord {s : State} {w : Word} {rest : List Word} (hq : s.cmdq = w :: rest) (herr : s.err = false)
    (hw : ¬ ∃ i, decode w = .ok i) : step s = .next (errorEntry w (illegalCommand w) (popCmdq s)) := by
  have hdiscards : discards w s = false := by simp [discards, herr]
  rcases step_cases s with ⟨hnil, -⟩ | ⟨w', rest', hq', hcase⟩
  · simp [hq] at hnil
  · obtain ⟨rfl, -⟩ := List.cons.inj (hq.symm.trans hq')
    rcases hcase with ⟨hd, -⟩ | ⟨-, -, hstep⟩ | ⟨-, i, hi, -⟩
    · simp [hdiscards] at hd
    · exact hstep
    · exact absurd ⟨i, hi⟩ hw

/-- Settles O4: legality is the decoder's answer, and a word without one enters the error state. -/
theorem illegalWordsRaise : Obligations.IllegalWordsRaise := by
  intro w
  refine ⟨exists_decode_eq_ok_iff w, fun s rest hq herr hillegal => ?_⟩
  rw [step_of_illegalWord hq herr (mt (exists_decode_eq_ok_iff w).1 hillegal)]
  simp only [errorEntry, illegalCommand, ErrorKind.code, popCmdq, hq, List.tail_cons]

/-! ## The two commands of `li` (30_encoding.md R82) -/

/-- SETLO to a register a command can name completes with the low half written (43_sequencer.md R182). -/
theorem exec_setlo {rd : BitVec 4} (hrd : rd.toNat ≤ 4) (imm16 : BitVec 16) (s : State) :
    exec (.setlo rd imm16) s = .next (writeOperand s rd (withLowHalf (readReg s rd) imm16)) :=
  exec_of_ok ((setloEffect_eq_ok ..).2 ⟨hrd, rfl⟩)

/-- SETHI to a register a command can name completes with the high half written (43_sequencer.md R183). -/
theorem exec_sethi {rd : BitVec 4} (hrd : rd.toNat ≤ 4) (imm16 : BitVec 16) (s : State) :
    exec (.sethi rd imm16) s = .next (writeOperand s rd (withHighHalf (readReg s rd) imm16)) :=
  exec_of_ok ((sethiEffect_eq_ok ..).2 ⟨hrd, rfl⟩)

theorem toNat_withLowHalf (v : Word) (half : BitVec 16) :
    (withLowHalf v half).toNat = v.toNat / 2 ^ 16 * 2 ^ 16 + half.toNat := by
  have hv := v.isLt
  rw [withLowHalf, toNat_append_mul, BitVec.extractLsb'_toNat, Nat.shiftRight_eq_div_pow]
  omega

theorem toNat_withHighHalf (v : Word) (half : BitVec 16) :
    (withHighHalf v half).toNat = half.toNat * 2 ^ 16 + v.toNat % 2 ^ 16 := by
  rw [withHighHalf, toNat_append_mul, BitVec.extractLsb'_toNat, Nat.shiftRight_zero, Nat.mul_comm]

/-- The value of a register, by its index as a field. -/
theorem reg_toNat (s : State) (rd : BitVec 4) : reg s rd.toNat = (readReg s rd).toNat := by
  rw [reg, BitVec.ofNat_toNat, BitVec.setWidth_eq]

/-- The value an operand register holds once written: IMGCFG has 16 bits (10_state.md R26). -/
theorem reg_writeOperand_same (s : State) {rd : BitVec 4} (v : Word) (hrd : rd.toNat ≤ 4) :
    reg (writeOperand s rd v) rd.toNat = if rd.toNat = 4 then v.toNat % 2 ^ 16 else v.toNat := by
  rw [reg_toNat, readReg_writeOperand_same s rd v hrd]
  split
  · rw [BitVec.toNat_setWidth, BitVec.toNat_setWidth]
    omega
  · rfl

/-- Settles O21: SETHI keeps the low half that SETLO wrote, so no bit of the old value is left. -/
theorem liLoadsWholeRegister : Obligations.LiLoadsWholeRegister := by
  intro s rd imm32 hrd
  refine ⟨_, _, _, _, rfl, exec_setlo hrd _ s, exec_sethi hrd _ _, ?_, fun k hk => ?_⟩
  · have hlow := reg_writeOperand_same s (withLowHalf (readReg s rd) (imm32.extractLsb' 0 16)) hrd
    rw [reg_writeOperand_same _ _ hrd, toNat_withHighHalf, ← reg_toNat, hlow, toNat_withLowHalf,
      BitVec.extractLsb'_toNat, BitVec.extractLsb'_toNat, Nat.shiftRight_eq_div_pow, Nat.shiftRight_eq_div_pow]
    have himm := imm32.isLt
    split <;> omega
  · rw [readReg_writeOperand_other _ _ _ _ hk, readReg_writeOperand_other _ _ _ _ hk]

/-! ## What the assembler emits (30_encoding.md R81, R82) -/

/-- A register name is one a command can name. -/
theorem regOperand_le {t : Token} {rd : BitVec 4} (h : regOperand t = some rd) : rd.toNat ≤ 4 := by
  unfold regOperand at h
  split at h
  · split at h <;> cases h <;> decide
  · cases h

/-- A literal that is not refused is in range. -/
theorem literalBelow_lt {bound v : Nat} {t : Token} (h : literalBelow bound t = some v) : v < bound := by
  unfold literalBelow at h
  split at h
  · split at h
    · split at h <;> cases h
      assumption
    · cases h
  · cases h

/-- A filter type operand is one of the five (30_encoding.md R74), as a name or as a literal below 5. -/
theorem filterOperand_le {t : Token} {ft : BitVec 3} (h : filterOperand t = some ft) : ft.toNat ≤ 4 := by
  unfold filterOperand at h
  split at h
  · split at h
    case h_6 =>
      obtain ⟨v, hv, rfl⟩ := Option.map_eq_some_iff.1 h
      have hlt := literalBelow_lt hv
      rw [BitVec.toNat_ofNat]
      omega
    all_goals cases h; decide
  · cases h

/-- Both commands of `li` are well formed for a register a command can name; `cfg` is `li` of IMGCFG (R82). -/
theorem liExpansion_wellFormed {rd : BitVec 4} (hrd : rd.toNat ≤ 4) (imm32 : Word) :
    ∀ i ∈ liExpansion rd imm32, i.wellFormed = true := by
  simp [liExpansion, Instr.wellFormed, hrd]

theorem assemble0_wellFormed {name : String} {is : List Instr} (h : assemble0 name = some is) :
    ∀ i ∈ is, i.wellFormed = true := by
  unfold assemble0 at h
  split at h <;> cases h <;> decide

theorem assemble1_wellFormed {name : String} {t : Token} {is : List Instr} (h : assemble1 name t = some is) :
    ∀ i ∈ is, i.wellFormed = true := by
  unfold assemble1 at h
  split at h
  · obtain ⟨b, -, rfl⟩ := Option.map_eq_some_iff.1 h
    simp [Instr.wellFormed]
  · obtain ⟨ft, hft, rfl⟩ := Option.map_eq_some_iff.1 h
    simp [Instr.wellFormed, filterOperand_le hft]
  · split at h
    · split at h <;> cases h
      simp [Pseudo.expand, Instr.wellFormed]
    · cases h
  · cases h

theorem assemble2_wellFormed {name : String} {t u : Token} {is : List Instr} (h : assemble2 name t u = some is) :
    ∀ i ∈ is, i.wellFormed = true := by
  unfold assemble2 at h
  split at h
  case h_1 | h_2 =>
    split at h <;> cases h
    simp [Instr.wellFormed, regOperand_le ‹_›]
  case h_3 =>
    split at h <;> cases h
    exact liExpansion_wellFormed (regOperand_le ‹_›) _
  case h_4 =>
    split at h <;> cases h
    exact liExpansion_wellFormed (by decide) _
  case h_5 => cases h

theorem assembleLine_wellFormed {line : List Char} {is : List Instr} (h : assembleLine line = some is) :
    ∀ i ∈ is, i.wellFormed = true := by
  unfold assembleLine at h
  split at h
  · cases h
    simp
  · split at h
    · cases h
    · split at h
      · exact assemble0_wellFormed h
      · exact assemble1_wellFormed h
      · exact assemble2_wellFormed h
      · cases h
  · cases h

/-- Settles O22: the operand parsers stay within the bounds of R76, so each command is well formed and O2 decodes it. -/
theorem assembledCommandsDecode : Obligations.AssembledCommandsDecode := by
  intro line is h i hi
  have hwf := assembleLine_wellFormed h i hi
  exact ⟨hwf, decodeOfEncode i hwf⟩

/-- Settles O1: each word is, by evaluation, the encoding of its command, which O2 decodes. -/
theorem decodesSpecWords : Obligations.DecodesSpecWords :=
  ⟨decodeOfEncode .nop rfl, decodeOfEncode .clrerr rfl, decodeOfEncode (.setlo 0#4 0x00AB#16) rfl,
    decodeOfEncode (.sethi 2#4 0x0001#16) rfl, decodeOfEncode .crcInit rfl, decodeOfEncode (.crcUpdb 0x61#8) rfl,
    decodeOfEncode .crcStore rfl, decodeOfEncode .fltDefilt rfl, decodeOfEncode (.fltFilt 3#3) rfl,
    decodeOfEncode .palTrns rfl, decodeOfEncode .pxcPack rfl⟩

end Sys2Proof.Machine

/-! PROOFS. The CRC unit (40_crc.md). Its table and its fold are eight shifts of R100's procedure, which are linear over
xor and injective; so folding a byte is injective in CRC_ACC and in the byte, and one changed byte changes CRC_VAL. -/

namespace Sys2Proof.Machine

open Sys2Proof.Claims

/-! ## The table (R100) -/

/-- A shift, bit by bit: the next bit, and the polynomial's where bit 0 is set. -/
theorem getLsbD_crcShift (c : Word) (i : Nat) :
    (crcShift c).getLsbD i = ((c.getLsbD 0 && (0xEDB88320#32).getLsbD i) ^^ c.getLsbD (i + 1)) := by
  unfold crcShift
  cases c.getLsbD 0 <;> simp [Nat.add_comm]

theorem toNat_crcShift (c : Word) : (crcShift c).toNat = tableShift c.toNat := by
  have hodd : c.getLsbD 0 = decide (c.toNat % 2 = 1) := Nat.testBit_zero _
  unfold crcShift tableShift
  rw [hodd]
  by_cases h : c.toNat % 2 = 1 <;> simp [h, Nat.shiftRight_eq_div_pow]

theorem crcTable_eq_iterate (n : Byte) : crcTable n = crcShift^[8] (n.setWidth 32) := rfl

/-- The procedure on words is the procedure on numbers. -/
theorem toNat_crcTable_eq_iterate (n : Byte) : (crcTable n).toNat = tableShift^[8] n.toNat := by
  have hshifts : Function.Semiconj BitVec.toNat crcShift tableShift := toNat_crcShift
  have hwide : (n.setWidth 32).toNat = n.toNat := BitVec.toNat_setWidth_of_le (by decide)
  rw [crcTable_eq_iterate, (hshifts.iterate_right 8).eq, hwide]

/-- The listing, evaluated: it is the model's table in order. -/
theorem listedTable_eq_map : listedTable = (List.range 256).map fun n => (crcTable (BitVec.ofNat 8 n)).toNat := by
  decide +kernel

theorem toNat_crcTable_eq_listed (n : Byte) : (crcTable n).toNat = listedTable.getD n.toNat 0 := by
  simp [listedTable_eq_map, List.getD_eq_getElem?_getD, n.isLt]

/-- Settles O23: the listing is evaluated against the model's table, whose eight shifts are the procedure's. -/
theorem tableHoldsListedContents : Obligations.TableHoldsListedContents :=
  ⟨by simp [listedTable_eq_map], fun n => ⟨toNat_crcTable_eq_listed n, toNat_crcTable_eq_iterate n⟩⟩

/-! ## Folding one byte (R102, R103) -/

/-- One step of R102's fold, on numbers, from the listed table. -/
theorem toNat_crcByte (acc : Word) (b : Byte) :
    (crcByte acc b).toNat = listedTable.getD ((acc.toNat ^^^ b.toNat) % 256) 0 ^^^ acc.toNat / 256 := by
  have hindex : ((acc ^^^ b.setWidth 32).extractLsb' 0 8).toNat = (acc.toNat ^^^ b.toNat) % 256 := by
    rw [BitVec.extractLsb'_toNat, BitVec.toNat_xor, BitVec.toNat_setWidth_of_le (by decide)]
    rfl
  rw [crcByte, BitVec.toNat_xor, toNat_crcTable_eq_listed, hindex, BitVec.toNat_ushiftRight, Nat.shiftRight_eq_div_pow]

/-- A shift is linear over xor. -/
theorem crcShift_xor (c d : Word) : crcShift (c ^^^ d) = crcShift c ^^^ crcShift d := by
  apply BitVec.eq_of_getLsbD_eq
  intro i _
  simp only [getLsbD_crcShift, BitVec.getLsbD_xor, Bool.and_xor_distrib_right, Bool.xor_assoc, Bool.xor_left_comm]

/-- A shift loses nothing: the polynomial's bit 31 is set, so bit 31 of the result tells bit 0. -/
theorem crcShift_injective : Function.Injective crcShift := by
  intro c d h
  have hbits (i : Nat) := congrArg (BitVec.getLsbD · i) h
  simp only [getLsbD_crcShift] at hbits
  have hlow : c.getLsbD 0 = d.getLsbD 0 := by simpa using hbits 31
  apply BitVec.eq_of_getLsbD_eq
  intro i _
  cases i with
  | zero => exact hlow
  | succ i => exact Bool.xor_right_inj.1 (hlow ▸ hbits i)

/-- Shifts that find 0 in bit 0 every time only shift. -/
theorem iterate_crcShift_of_low_zero (k : Nat) (c : Word) (hlow : ∀ i < k, c.getLsbD i = false) :
    crcShift^[k] c = c >>> k := by
  induction k generalizing c with
  | zero => simp
  | succ k ih =>
    have hshift : crcShift c = c >>> 1 := if_neg (by rw [hlow 0 (by omega)]; decide)
    have hrest : ∀ i < k, (c >>> 1).getLsbD i = false := by
      intro i hi
      rw [BitVec.getLsbD_ushiftRight]
      exact hlow (1 + i) (by omega)
    rw [Function.iterate_succ_apply, hshift, ih _ hrest, ← BitVec.shiftRight_add, Nat.add_comm]

/-- Folding a byte is eight shifts of the accumulator with the byte in it: its low byte is looked up in TABLE, and the
rest only moves down. -/
theorem crcByte_eq_iterate (acc : Word) (b : Byte) : crcByte acc b = crcShift^[8] (acc ^^^ b.setWidth 32) := by
  set z := acc ^^^ b.setWidth 32 with hz
  set n := z.extractLsb' 0 8 with hn
  have hlow : ∀ i < 8, (z ^^^ n.setWidth 32).getLsbD i = false := by
    intro i hi
    simp [hn, hi, show i < 32 by omega]
  have hhigh : (z ^^^ n.setWidth 32) >>> 8 = acc >>> 8 := by
    apply BitVec.eq_of_getLsbD_eq
    intro i _
    simp [hz, BitVec.getLsbD_setWidth]
  have hlinear : Function.Semiconj₂ crcShift (· ^^^ ·) (· ^^^ ·) := crcShift_xor
  calc crcByte acc b
      = crcShift^[8] (n.setWidth 32) ^^^ crcShift^[8] (z ^^^ n.setWidth 32) := by
        rw [iterate_crcShift_of_low_zero 8 _ hlow, hhigh]
        rfl
    _ = crcShift^[8] (n.setWidth 32 ^^^ (z ^^^ n.setWidth 32)) := ((hlinear.iterate 8).eq _ _).symm
    _ = crcShift^[8] z := by rw [BitVec.xor_comm z, ← BitVec.xor_assoc, BitVec.xor_self, BitVec.zero_xor]

theorem crcByte_injective_acc (b : Byte) : Function.Injective (crcByte · b) := by
  intro acc acc' h
  simp only [crcByte_eq_iterate] at h
  exact (BitVec.xor_left_inj _).1 (crcShift_injective.iterate 8 h)

theorem crcByte_injective_byte (acc : Word) : Function.Injective (crcByte acc) := by
  intro b b' h
  rw [crcByte_eq_iterate, crcByte_eq_iterate] at h
  have hwide := (BitVec.xor_right_inj _).1 (crcShift_injective.iterate 8 h)
  simpa using congrArg (BitVec.setWidth 8) hwide

/-! ## Folding a sequence (R102, R106) -/

theorem crcFold_append (acc : Word) (l l' : List Byte) : crcFold acc (l ++ l') = crcFold (crcFold acc l) l' :=
  List.foldl_append

theorem crcFold_injective_acc (l : List Byte) : Function.Injective (crcFold · l) := by
  induction l with
  | nil => exact fun _ _ h => h
  | cons b l ih => exact ih.comp (crcByte_injective_acc b)

/-- Sequences that differ in one byte fold to different values, whatever stands before and after it. -/
theorem crcFold_ne_of_byte_ne (acc : Word) (l l' : List Byte) {b b' : Byte} (h : b ≠ b') :
    crcFold acc (l ++ b :: l') ≠ crcFold acc (l ++ b' :: l') := by
  rw [crcFold_append, crcFold_append]
  exact fun heq => h (crcByte_injective_byte _ (crcFold_injective_acc l' heq))

theorem toNat_crcFold (acc : Word) (l : List Byte) :
    (crcFold acc l).toNat = listedFold acc.toNat (l.map BitVec.toNat) := by
  induction l generalizing acc with
  | nil => rfl
  | cons b l ih =>
    calc (crcFold (crcByte acc b) l).toNat
        = listedFold (crcByte acc b).toNat (l.map BitVec.toNat) := ih _
      _ = listedFold acc.toNat ((b :: l).map BitVec.toNat) := by
        rw [toNat_crcByte]
        rfl

/-! ## The bytes of a range -/

theorem map_toNat_memRead (s : State) (a n : Nat) : (memRead s a n).map BitVec.toNat = memList s a n := by
  simp [memRead, memList, mem]

theorem memRead_add (s : State) (a m n : Nat) : memRead s a (m + n) = memRead s a m ++ memRead s (a + m) n := by
  simp [memRead, List.range_add, Nat.add_assoc]

/-- A range, taken apart at one of its bytes. -/
theorem memRead_eq_append_cons (s : State) (a x n : Nat) :
    memRead s a (x + 1 + n) = memRead s a x ++ dmemByte s (a + x) :: memRead s (a + x + 1) n := by
  rw [memRead_add, memRead_add, List.append_assoc]
  rfl

/-! ## CRC.INIT, CRC.UPD and CRC.UPDB -/

/-- Settles O24: CRC.INIT's effect is the one write, and 0xFFFFFFFF xor itself is 0. -/
theorem crcInitStartsComputation : Obligations.CrcInitStartsComputation :=
  fun _ => ⟨exec_of_ok rfl, congrArg BitVec.toNat (BitVec.xor_self (x := 0xFFFFFFFF#32))⟩

theorem exec_crcUpd {s : State} {a n : Nat} (ha : reg s 0 = a) (hn : reg s 2 = n) (h : a + n ≤ s.params.dmemSize) :
    exec .crcUpd s = .next { s with crcAcc := crcFold s.crcAcc (memRead s a n) } := by
  subst ha hn
  exact exec_of_ok ((crcUpdEffect_eq_ok ..).2 ⟨h, rfl⟩)

theorem exec_crcUpdb (s : State) (b : Byte) :
    exec (.crcUpdb b) s = .next { s with crcAcc := crcByte s.crcAcc b } := exec_of_ok rfl

/-- Settles O26: the model's fold is the listed one, over the bytes read as numbers. -/
theorem crcUpdFoldsBytes : Obligations.CrcUpdFoldsBytes := by
  intro s h
  refine ⟨_, exec_crcUpd rfl rfl h, ?_⟩
  rw [toNat_crcFold, map_toNat_memRead]
  rfl

/-- Settles O27: the immediate is folded as a sequence of one byte. -/
theorem crcUpdbFoldsImmediate : Obligations.CrcUpdbFoldsImmediate :=
  fun s b => ⟨_, exec_crcUpdb s b, toNat_crcFold s.crcAcc [b]⟩

/-- Settles O29: a range of one byte is folded as that byte. -/
theorem crcUpdbEqualsOneByteUpd : Obligations.CrcUpdbEqualsOneByteUpd := by
  intro s b hlen hrange hb
  have hread : memRead s (reg s 0) 1 = [b] := congrArg (fun c => [c]) hb
  rw [exec_crcUpd rfl hlen hrange, hread, exec_crcUpdb]
  rfl

/-- Settles O28: the range of m + n bytes is the two ranges one after the other, and the fold follows it. -/
theorem crcUpdSplitsAnywhere : Obligations.CrcUpdSplitsAnywhere := by
  intro s m n hword hsize
  have toNat_of_le {k : Nat} (hk : k ≤ reg s 0 + (m + n)) : (BitVec.ofNat 32 k).toNat = k :=
    Nat.mod_eq_of_lt (by omega)
  have hfold : crcFold (crcFold s.crcAcc (memRead s (reg s 0) m)) (memRead s (reg s 0 + m) n) =
      crcFold s.crcAcc (memRead s (reg s 0) (m + n)) := by
    rw [memRead_add, crcFold_append]
  have hfirst : reg s 0 + m ≤ s.params.dmemSize := by omega
  have hsecond : reg s 0 + m + n ≤ s.params.dmemSize := by omega
  exact ⟨_, _, _, exec_crcUpd rfl (toNat_of_le (by omega)) hfirst,
    exec_crcUpd (toNat_of_le (by omega)) (toNat_of_le (by omega)) hsecond,
    exec_crcUpd rfl (toNat_of_le (by omega)) hsize, congrArg BitVec.toNat hfold,
    congrArg (fun acc => (acc ^^^ 0xFFFFFFFF#32).toNat) hfold⟩

/-- CRC_VAL tells CRC_ACC: the final xor loses nothing. -/
theorem crcAcc_eq_of_crcVal_eq {s t : State} (h : crcVal s = crcVal t) : s.crcAcc = t.crcAcc :=
  (BitVec.xor_left_inj _).1 h

/-- Settles O33: folding is injective in CRC_ACC and in each byte, so the two values part at the changed byte and stay
apart over the bytes after it. -/
theorem crcDetectsOneChangedByte : Obligations.CrcDetectsOneChangedByte := by
  intro s t x hrange ht hx hne hsame
  obtain ⟨k, hk⟩ : ∃ k, reg s 2 = x + 1 + k := ⟨reg s 2 - (x + 1), by omega⟩
  have hbefore : memRead t (reg s 0) x = memRead s (reg s 0) x :=
    memRead_congr fun y hy => hsame y (by omega) (by omega)
  have hafter : memRead t (reg s 0 + x + 1) k = memRead s (reg s 0 + x + 1) k :=
    memRead_congr fun y hy => by
      have := hsame (x + 1 + y) (by omega) (by omega)
      rwa [show reg s 0 + (x + 1 + y) = reg s 0 + x + 1 + y by omega] at this
  have hfold : crcFold s.crcAcc (memRead s (reg s 0) (reg s 2)) ≠
      crcFold s.crcAcc (memRead t (reg s 0) (reg s 2)) := by
    rw [hk, memRead_eq_append_cons, memRead_eq_append_cons, hbefore, hafter]
    exact crcFold_ne_of_byte_ne _ _ _ hne.symm
  rw [ht] at hfold ⊢
  exact ⟨_, _, exec_crcUpd rfl rfl hrange, exec_crcUpd rfl rfl hrange,
    fun h => hfold (crcAcc_eq_of_crcVal_eq (BitVec.eq_of_toNat_eq h))⟩

/-! ## CRC.CHECK and CRC.STORE (R104, R105) -/

theorem exec_crcCheck_of_eq (s : State) (h : s.src.toNat + 4 ≤ s.params.dmemSize)
    (heq : be32 (memRead s s.src.toNat 4) = crcVal s) : exec .crcCheck s = .next s :=
  exec_of_ok ((crcCheckEffect_eq_ok ..).2 ⟨h, heq, rfl⟩)

theorem exec_crcCheck_of_ne (s : State) (h : s.src.toNat + 4 ≤ s.params.dmemSize)
    (hne : be32 (memRead s s.src.toNat 4) ≠ crcVal s) :
    exec .crcCheck s = .next
      (errorEntry (encode .crcCheck) ⟨.crcMismatch, be32 (memRead s s.src.toNat 4)⟩ s) := by
  refine exec_of_error (bind_eq_error.2 (.inr ⟨(), (checkRange_eq_ok ..).2 h, ?_⟩))
  exact if_neg hne

theorem exec_crcStore (s : State) (h : s.dst.toNat + 4 ≤ s.params.dmemSize) :
    exec .crcStore s = .next (memWrite s s.dst.toNat (beBytes (crcVal s))) :=
  exec_of_ok ((crcStoreEffect_eq_ok ..).2 ⟨h, rfl⟩)

/-- The value CRC.STORE leaves at DST. -/
theorem be32_memRead_stored (s : State) (a : Nat) (v : Word) : be32 (memRead (memWrite s a (beBytes v)) a 4) = v := by
  rw [← length_beBytes v, memRead_memWrite_same, be32_beBytes]

/-- Settles O30: the stored word and CRC_VAL are equal exactly when their numbers are. -/
theorem crcCheckComparesFinishedValue : Obligations.CrcCheckComparesFinishedValue := by
  intro s h
  rw [be32At_eq, reg_crcVal, BitVec.ofNat_toNat, BitVec.setWidth_eq]
  exact ⟨fun heq => exec_crcCheck_of_eq s h (BitVec.eq_of_toNat_eq heq),
    fun hne => exec_crcCheck_of_ne s h (mt (congrArg BitVec.toNat) hne)⟩

/-- Settles O31: a big-endian value reads back where it was written, and no byte outside its four changes. -/
theorem crcStoreWritesBigEndian : Obligations.CrcStoreWritesBigEndian := by
  intro s h
  refine ⟨_, exec_crcStore s h, rfl, ?_, dmemByte_memWrite_outside s _ (beBytes (crcVal s))⟩
  rw [be32At_eq]
  exact congrArg BitVec.toNat (be32_memRead_stored s _ _)

/-- Settles O32: the check reads back what the store wrote, which is CRC_VAL still. -/
theorem crcStoreThenCheckPasses : Obligations.CrcStoreThenCheckPasses :=
  fun s h => ⟨_, exec_crcStore s h, exec_crcCheck_of_eq _ h (be32_memRead_stored s s.dst.toNat (crcVal s))⟩

end Sys2Proof.Machine

/-! PROOFS. The filter unit (41_filter.md): the predictors, decode as the inverse of encode, the first least score, and
what the row commands answer and store once their checks have passed. -/

namespace Sys2Proof.Machine

open Sys2Proof.Claims

/-! ## The filter types and the predictors (R123) -/

/-- Every number up to 4 is a filter type's (30_encoding.md R74). -/
theorem exists_eq_number {k : Nat} (h : k ≤ 4) : ∃ t : FilterType, k = t.number := by
  cases ht : FilterType.ofNumber k with
  | none => exact absurd ((FilterType.ofNumber_eq_none k).1 ht) (by omega)
  | some t => exact ⟨t, (FilterType.ofNumber_eq_some k t).1 ht⟩

/-- The numbers FLT.SEL tries are those of the types but None (R127). -/
theorem exists_candidate {k : Nat} (h : k ∈ [1, 2, 3, 4]) : ∃ t : FilterType, k = t.number ∧ t ≠ .none := by
  have hk : 1 ≤ k ∧ k ≤ 4 := by
    simp only [List.mem_cons, List.not_mem_nil, or_false] at h
    omega
  obtain ⟨t, rfl⟩ := exists_eq_number hk.2
  refine ⟨t, rfl, ?_⟩
  rintro rfl
  exact absurd hk.1 (by decide)

/-- Settles O34: Paeth's branches are the statement's, and each one's condition puts its answer at the least
distance. -/
theorem predictorRule : Obligations.PredictorRule := by
  intro a b c p d
  have hleft (h : d a ≤ d b ∧ d a ≤ d c) : paeth a b c = a := if_pos h
  have habove (h : ¬(d a ≤ d b ∧ d a ≤ d c)) (h' : d b ≤ d c) : paeth a b c = b := (if_neg h).trans (if_pos h')
  have hupper (h : ¬(d a ≤ d b ∧ d a ≤ d c)) (h' : ¬d b ≤ d c) : paeth a b c = c := (if_neg h).trans (if_neg h')
  have hleast : d (paeth a b c) ≤ d a ∧ d (paeth a b c) ≤ d b ∧ d (paeth a b c) ≤ d c := by
    by_cases h : d a ≤ d b ∧ d a ≤ d c
    · rw [hleft h]
      exact ⟨le_rfl, h⟩
    · by_cases h' : d b ≤ d c
      · rw [habove h h']
        omega
      · rw [hupper h h']
        omega
  exact ⟨rfl, rfl, rfl, rfl, rfl, paeth_cases a b c, by simpa using hleast, hleft, habove, hupper⟩

/-- With nothing above, Paeth is Sub: p = a (R125). -/
theorem paeth_of_above_zero (a : Byte) : paeth a 0 0 = a := by simp [paeth]

/-! ## The row computations -/

/-- Rows of one length that agree byte by byte are the same row. -/
theorem row_ext_getD {r r' : List Byte} (hlen : r.length = r'.length) (h : ∀ x < r'.length, r.getD x 0 = r'.getD x 0) :
    r = r' := by
  refine List.ext_getElem hlen fun x hx hx' => ?_
  rw [← List.getD_eq_getElem r 0 hx, ← List.getD_eq_getElem r' 0 hx', h x hx']

theorem filterBytes_paeth_eq_sub (bpp : Nat) {prior : List Byte} (r : List Byte) (h : ∀ x, prior.getD x 0 = 0) :
    filterBytes .paeth bpp prior r = filterBytes .sub bpp prior r := by
  refine List.map_congr_left fun x _ => ?_
  have habove : aboveOf prior x = 0 := h x
  have hupper : upperLeftOf bpp prior x = 0 := by
    unfold upperLeftOf
    rw [h, ite_self]
  rw [habove, hupper]
  simp only [predictor, paeth_of_above_zero]

/-- Decode inverts encode, byte after byte: the left neighbour decode has reconstructed is the raw one (R131). -/
theorem defilterBytes_filterBytes (t : FilterType) {bpp : Nat} (hb : 1 ≤ bpp) (prior r : List Byte) :
    defilterBytes t bpp prior (filterBytes t bpp prior r) = r := by
  refine row_ext_getD (by rw [length_defilterBytes, length_filterBytes]) fun x hx => ?_
  induction x using Nat.strongRecOn with
  | ind x ih =>
    have hleft : leftOf bpp (defilterBytes t bpp prior (filterBytes t bpp prior r)) x = leftOf bpp r x := by
      unfold leftOf
      split
      · exact ih (x - bpp) (by omega) (by omega)
      · rfl
    rw [getD_defilterBytes t bpp hb _ _ x (by rwa [length_filterBytes]), hleft, getD_filterBytes _ _ _ _ _ hx,
      addPredictor_subPredictor]

/-! ## The first least score (R127, R128) -/

/-- The score FLT.SEL gives a filter type. -/
def filterScore (bpp : Nat) (prior row : List Byte) (t : FilterType) : Nat := score (filterBytes t bpp prior row)

/-- The choice is the first least score: at most every candidate's, and below those of the types tried before it. -/
theorem bestFilter_first_least (bpp : Nat) (prior row : List Byte) {t : FilterType} (ht : t ≠ .none) :
    filterScore bpp prior row (bestFilter bpp prior row) ≤ filterScore bpp prior row t ∧
      (t.number < (bestFilter bpp prior row).number →
        filterScore bpp prior row (bestFilter bpp prior row) < filterScore bpp prior row t) := by
  have hdef : bestFilter bpp prior row =
      let sc := filterScore bpp prior row
      let least := min (min (sc .sub) (sc .up)) (min (sc .average) (sc .paeth))
      if sc .sub = least then .sub else if sc .up = least then .up else if sc .average = least then .average
      else .paeth := rfl
  rw [hdef]
  generalize filterScore bpp prior row = sc
  cases t with
  | none => exact absurd rfl ht
  | sub | up | average | paeth =>
    simp only
    split_ifs <;> simp only [FilterType.number] <;> omega

theorem bestFilter_ne_none (bpp : Nat) (prior row : List Byte) : bestFilter bpp prior row ≠ .none := by
  rcases bestFilter_cases bpp prior row with h | h | h | h <;> rw [h] <;> decide

/-- Paeth is tried last, so it is chosen only over another Sub row. -/
theorem bestFilter_ne_paeth {bpp : Nat} {prior row : List Byte}
    (h : filterBytes .paeth bpp prior row = filterBytes .sub bpp prior row) :
    bestFilter bpp prior row ≠ .paeth := by
  intro hbest
  have hlt := (bestFilter_first_least bpp prior row (t := .sub) (by decide)).2 (by rw [hbest]; decide)
  rw [hbest, filterScore, filterScore, h] at hlt
  exact lt_irrefl _ hlt

/-- The register of a filter type's score, after FLT.SEL (10_state.md R35). -/
theorem reg_score {t : FilterType} (ht : t ≠ .none) (best : FilterType) (raw : List Byte) (bpp : Nat)
    (prior row : List Byte) (w : State) :
    reg (rowDone best raw (storeScores bpp prior row w)) (10 + t.number) = (scoreWord t bpp row prior).toNat := by
  cases t with
  | none => exact absurd rfl ht
  | sub | up | average | paeth => rfl

theorem toNat_scoreWord {t : FilterType} {bpp : Nat} {row prior : List Byte}
    (h : filterScore bpp prior row t < 2 ^ 32) : (scoreWord t bpp row prior).toNat = filterScore bpp prior row t := by
  unfold scoreWord
  exact (congrArg BitVec.toNat (if_pos h)).trans (Nat.mod_eq_of_lt h)

/-! ## What the commands answer (R124 to R129) -/

/-- Settles O35: an empty PREV reads 0 at every index. -/
theorem fltStartClearsPrev : Obligations.FltStartClearsPrev :=
  fun s => ⟨_, exec_of_ok rfl, rfl, prevByte_clearPrev s⟩

/-- Settles O39: the row length of the statement is the one FLT.CHKLEN divides by. -/
theorem fltChklenPassesWholeRows : Obligations.FltChklenPassesWholeRows := by
  intro s cm bpp hcfg
  have hbpp := hcfg.bytesPerPixel
  constructor
  · intro hwhole
    exact exec_of_ok ((fltChklenEffect_eq_ok ..).2 ⟨bpp, hbpp, hwhole, rfl⟩)
  · intro hpart
    have hraise : effectOf .fltChklen s = .error ⟨.malformedPixelData, s.len⟩ :=
      bind_eq_error.2 (.inr ⟨bpp, hbpp, if_neg hpart⟩)
    exact exec_of_error hraise

/-- The checks of a row command pass: the row prologue (R130) on rows of `n` bytes of stride `bpp`, `m` bytes from SRC
and `k` bytes from DST. -/
structure RowReady (s : State) (bpp n m k : Nat) : Prop where
  prologue : rowPrologue s = .ok bpp
  length   : rowBytes s bpp = n
  src      : s.src.toNat + m ≤ s.params.dmemSize
  dst      : s.dst.toNat + k ≤ s.params.dmemSize

/-- The hypotheses of the statements about row commands. -/
theorem rowReady_of_configured {s : State} {cm bpp n m k : Nat} (hcfg : Configured s cm bpp) (hn : n = reg s 3 * bpp)
    (hfits : n ≤ s.params.maxRowBytes) (hsrc : reg s 0 + m ≤ s.params.dmemSize)
    (hdst : reg s 1 + k ≤ s.params.dmemSize) : RowReady s bpp n m k :=
  ⟨hcfg.rowPrologue (hn ▸ hfits), hn.symm, hsrc, hdst⟩

theorem RowReady.bpp_pos {s : State} {bpp n m k : Nat} (h : RowReady s bpp n m k) : 1 ≤ bpp :=
  bytesPerPixel_pos ((rowPrologue_eq_ok ..).1 h.prologue).1

theorem exec_fltDefilt {s : State} {bpp n : Nat} {t : FilterType} (h : RowReady s bpp n (1 + n) n)
    (htag : (dmemByte s s.src.toNat).toNat = t.number) :
    let r := defilterBytes t bpp (prevRow s n) (memRead s (s.src.toNat + 1) n)
    exec .fltDefilt s = .next (rowDone t r (memWrite s s.dst.toNat r)) := by
  obtain ⟨hrow, rfl, hsrc, hdst⟩ := h
  exact exec_of_ok ((fltDefiltEffect_eq_ok ..).2 ⟨bpp, t, hrow, hsrc, hdst, htag, rfl⟩)

theorem exec_fltFilt {s : State} {bpp n : Nat} {ft : BitVec 3} {t : FilterType} (h : RowReady s bpp n n (1 + n))
    (ht : ft.toNat = t.number) :
    let r := memRead s s.src.toNat n
    exec (.fltFilt ft) s =
      .next (rowDone t r (memWrite s s.dst.toNat (taggedRow t bpp (prevRow s n) r))) := by
  obtain ⟨hrow, rfl, hsrc, hdst⟩ := h
  exact exec_of_ok ((fltFiltEffect_eq_ok ..).2 ⟨t, bpp, ht, hrow, hsrc, hdst, rfl⟩)

theorem exec_fltSel {s : State} {bpp n : Nat} (h : RowReady s bpp n n (1 + n)) :
    let r := memRead s s.src.toNat n
    let best := bestFilter bpp (prevRow s n) r
    exec .fltSel s =
      .next (rowDone best r (storeScores bpp (prevRow s n) r
        (memWrite s s.dst.toNat (taggedRow best bpp (prevRow s n) r)))) := by
  obtain ⟨hrow, rfl, hsrc, hdst⟩ := h
  exact exec_of_ok ((fltSelEffect_eq_ok ..).2 ⟨bpp, hrow, hsrc, hdst, rfl⟩)

/-! ## A stored tagged row (R120) -/

section
variable (s : State) (a : Nat) (t : FilterType) (bpp : Nat) (prior r : List Byte)

theorem dmemByte_taggedRow_tag :
    dmemByte (memWrite s a (taggedRow t bpp prior r)) a = BitVec.ofNat 8 t.number :=
  dmemByte_memWrite_inside s a (taggedRow t bpp prior r) 0 (by simp [length_taggedRow])

theorem dmemByte_taggedRow_byte {x : Nat} (hx : x < r.length) :
    dmemByte (memWrite s a (taggedRow t bpp prior r)) (a + 1 + x) = (filterBytes t bpp prior r).getD x 0 := by
  rw [Nat.add_assoc, Nat.add_comm 1 x, dmemByte_memWrite_inside _ _ _ _ (by rw [length_taggedRow]; omega)]
  rfl

/-- The filtered bytes, read back from behind the tag. -/
theorem memRead_taggedRow :
    memRead (memWrite s a (taggedRow t bpp prior r)) (a + 1) r.length = filterBytes t bpp prior r := by
  refine row_ext_getD (by rw [length_memRead, length_filterBytes]) fun x hx => ?_
  rw [length_filterBytes] at hx
  rw [getD_memRead _ _ _ _ hx, dmemByte_taggedRow_byte _ _ _ _ _ _ hx]

end

theorem toNat_tag (t : FilterType) : (BitVec.ofNat 8 t.number).toNat = t.number :=
  Nat.mod_eq_of_lt (by have := t.number_le; omega)

theorem prevByte_rowDone_memRead_below (t : FilterType) (s w : State) (a : Nat) {n x : Nat} (hx : x < n) :
    prevByte (rowDone t (memRead s a n) w) x = dmemByte s (a + x) := by
  rw [prevByte_rowDone, length_memRead, if_pos hx, getD_memRead _ _ _ _ hx]

/-- Bytes of PREV at and above ROWB are left unchanged (10_state.md R32). -/
theorem prevByte_rowDone_above (t : FilterType) (raw : List Byte) (w : State) {x : Nat} (hx : raw.length ≤ x) :
    prevByte (rowDone t raw w) x = prevByte w x := by
  rw [prevByte_rowDone, if_neg (by omega)]

/-- What FLT.FILT and FLT.SEL leave in DMEM and PREV: the row at SRC filtered with `t` behind its tag at DST, and the
raw row in PREV. -/
def EmitsRow (s u : State) (bpp n : Nat) (t : FilterType) : Prop :=
  mem u (reg s 1) = t.number ∧
    (∀ x < n, (mem u (reg s 1 + 1 + x) : Int) = filtered s bpp t.number x) ∧
    (∀ x < n, prevByte u x = dmemByte s (reg s 0 + x)) ∧ (∀ x, n ≤ x → prevByte u x = prevByte s x) ∧
    SameDmemOutside (reg s 1) (1 + n) s u

/-- The tagged row stored, and then the raw row done, emit the row, whatever other registers are written. -/
theorem emitsRow_rowDone {s w : State} {bpp n : Nat} (hb : 1 ≤ bpp) (t : FilterType)
    (hdmem : w.dmem = (memWrite s s.dst.toNat (taggedRow t bpp (prevRow s n) (memRead s s.src.toNat n))).dmem)
    (hepoch : w.drawEpoch = s.drawEpoch) (hprev : w.prev = s.prev) :
    EmitsRow s (rowDone t (memRead s s.src.toNat n) w) bpp n t := by
  have hread (a : Nat) : dmemByte (rowDone t (memRead s s.src.toNat n) w) a =
      dmemByte (memWrite s s.dst.toNat (taggedRow t bpp (prevRow s n) (memRead s s.src.toNat n))) a :=
    dmemByte_congr hdmem hepoch a
  refine ⟨?_, ?_, ?_, ?_, ?_⟩
  · rw [mem, hread, reg_dst, dmemByte_taggedRow_tag, toNat_tag]
  · intro x hx
    rw [mem, hread, reg_dst, dmemByte_taggedRow_byte _ _ _ _ _ _ (by rwa [length_memRead]),
      filtered_eq s bpp n t x hb hx]
  · exact fun x hx => prevByte_rowDone_memRead_below t s w _ hx
  · intro x hx
    rw [prevByte_rowDone_above _ _ _ (by rwa [length_memRead]), prevByte_congr hprev]
  · intro x hx
    rw [hread, dmemByte_memWrite_outside]
    rwa [length_taggedRow, length_memRead]

/-- What FLT.SEL writes, and nothing else (R127). -/
theorem selectedRow_frame (t : FilterType) (raw : List Byte) (bpp : Nat) (prior row : List Byte) (a : Nat)
    (bytes : List Byte) (s : State) :
    let u := rowDone t raw (storeScores bpp prior row (memWrite s a bytes))
    u = { s with
          dmem := u.dmem, prev := u.prev, rowCount := s.rowCount + 1#32, lastf := t, scoreSub := u.scoreSub,
          scoreUp := u.scoreUp, scoreAvg := u.scoreAvg, scorePaeth := u.scorePaeth } := by
  simp only [rowDone, storeScores, storePrev, memWrite]

/-! ## The row commands (R125 to R127) -/

/-- Settles O36: the loop's byte equation, read at DST. -/
theorem fltDefiltReconstructsRow : Obligations.FltDefiltReconstructsRow := by
  intro s cm bpp n t hcfg hn hfits hsrc hdst htag
  have hready := rowReady_of_configured hcfg hn hfits hsrc hdst
  set f := memRead s (s.src.toNat + 1) n with hf
  set r := defilterBytes t bpp (prevRow s n) f with hr
  have hlen : r.length = n := by rw [hr, length_defilterBytes, hf, length_memRead]
  have hbyte (x : Nat) (hx : x < n) : dmemByte (rowDone t r (memWrite s s.dst.toNat r)) (reg s 1 + x) = r.getD x 0 :=
    dmemByte_memWrite_inside s _ r x (by rwa [hlen])
  refine ⟨_, exec_fltDefilt hready htag, rfl, ?_, ?_, ?_, ?_⟩
  · intro x hx
    have hpred := predAt_eq s bpp n t (fun y => mem (rowDone t r (memWrite s s.dst.toNat r)) (reg s 1 + y)) r x
      hready.bpp_pos hx fun y hy => congrArg BitVec.toNat (hbyte y (by omega))
    have hloop : r.getD x 0 = addPredictor (f.getD x 0)
        (predictor t (leftOf bpp r x) (aboveOf (prevRow s n) x) (upperLeftOf bpp (prevRow s n) x)) :=
      getD_defilterBytes t bpp hready.bpp_pos _ f x (by rwa [hf, length_memRead])
    rw [mem, hbyte x hx, hpred, hloop, toNat_addPredictor, hf, getD_memRead _ _ _ _ hx]
    rfl
  · intro x hx
    rw [hbyte x hx, prevByte_rowDone, if_pos (by rwa [hlen])]
  · intro x hx
    exact prevByte_rowDone_above t r _ (by rwa [hlen])
  · intro x hx
    exact dmemByte_memWrite_outside s _ r x (by rwa [hlen])

/-- Settles O37: FLT.FILT emits the row with its type. -/
theorem fltFiltFiltersRow : Obligations.FltFiltFiltersRow := by
  intro s cm bpp n ft t hcfg hn hfits hsrc hdst ht
  have hready := rowReady_of_configured hcfg hn hfits hsrc hdst
  exact ⟨_, exec_fltFilt hready ht, rfl, emitsRow_rowDone hready.bpp_pos t rfl rfl rfl⟩

/-- Settles O38: the statement's scores are those the choice compares, and FLT.SEL emits the row with the choice. -/
theorem fltSelPicksFirstMinimum : Obligations.FltSelPicksFirstMinimum := by
  intro s cm bpp n hcfg hn hfits hsrc hdst
  have hready := rowReady_of_configured hcfg hn hfits hsrc hdst
  have hscore (t : FilterType) :
      scoreOf s bpp n t.number = filterScore bpp (prevRow s n) (memRead s s.src.toNat n) t :=
    scoreOf_eq s bpp n t hready.bpp_pos
  refine ⟨_, bestFilter bpp (prevRow s n) (memRead s s.src.toNat n), exec_fltSel hready, selectedRow_frame ..,
    bestFilter_ne_none _ _ _, ?_, ?_, ?_, emitsRow_rowDone hready.bpp_pos _ rfl rfl rfl⟩
  · intro k hk
    obtain ⟨t, rfl, ht⟩ := exists_candidate hk
    rw [hscore, hscore]
    exact (bestFilter_first_least _ _ _ ht).1
  · intro k hk
    obtain ⟨t, rfl, ht⟩ := exists_candidate hk
    rw [hscore, hscore]
    exact (bestFilter_first_least _ _ _ ht).2
  · intro k hk
    obtain ⟨t, rfl, ht⟩ := exists_candidate hk
    rw [hscore, reg_score ht]
    exact toNat_scoreWord

/-! ## Laws of the unit (R131, R133) -/

/-- FLT.DEFILT of the filtered bytes of a row answers that row. -/
theorem exec_fltDefilt_of_filtered {s : State} {bpp n : Nat} {t : FilterType} {r : List Byte}
    (h : RowReady s bpp n (1 + n) n) (htag : (dmemByte s s.src.toNat).toNat = t.number)
    (hread : memRead s (s.src.toNat + 1) n = filterBytes t bpp (prevRow s n) r) :
    exec .fltDefilt s = .next (rowDone t r (memWrite s s.dst.toNat r)) := by
  have hexec := exec_fltDefilt h htag
  rwa [hread, defilterBytes_filterBytes t h.bpp_pos] at hexec

/-- Settles O40: FLT.DEFILT finds the tag and the filtered bytes FLT.FILT has stored, and decode inverts encode. -/
theorem filterInverseLaw : Obligations.FilterInverseLaw := by
  intro s cm bpp n ft d hcfg hn hfits hsrc hdst hft hd
  obtain ⟨t, ht⟩ := exists_eq_number hft
  have hready := rowReady_of_configured hcfg hn hfits hsrc hdst
  set r := memRead s s.src.toNat n with hr
  have hlen : r.length = n := by rw [hr, length_memRead]
  have htag := (congrArg BitVec.toNat (dmemByte_taggedRow_tag s s.dst.toNat t bpp (prevRow s n) r)).trans (toNat_tag t)
  have hread := memRead_taggedRow s s.dst.toNat t bpp (prevRow s n) r
  rw [hlen] at hread
  set u := rowDone t r (memWrite s s.dst.toNat (taggedRow t bpp (prevRow s n) r))
  have hready' : RowReady { u with prev := s.prev, src := s.dst, dst := d } bpp n (1 + n) n :=
    rowReady_of_configured hcfg hn hfits hdst hd
  refine ⟨u, _, exec_fltFilt hready ht, exec_fltDefilt_of_filtered hready' htag hread, ?_, ?_⟩
  · intro x hx
    rw [dmemByte_rowDone, dmemByte_memWrite_inside _ _ _ _ (by rwa [hlen]), hr, getD_memRead _ _ _ _ hx]
    rfl
  · intro x
    rw [prevByte_rowDone, prevByte_rowDone]
    rfl

/-- Settles O41: the two rows and the two rows above them are equal lists, of which the rest is made. -/
theorem selectionIsPure : Obligations.SelectionIsPure := by
  intro s s' cm cm' bpp n hcfg hcfg' hn hn' hfits hsrc hdst hfits' hsrc' hdst' hrow hprior
  have hready := rowReady_of_configured hcfg hn hfits hsrc hdst
  have hready' := rowReady_of_configured hcfg' hn' hfits' hsrc' hdst'
  have hraw : memRead s' s'.src.toNat n = memRead s s.src.toNat n := memRead_congr hrow
  have habove : prevRow s' n = prevRow s n := List.map_congr_left fun x hx => hprior x (List.mem_range.1 hx)
  have hsel' := exec_fltSel hready'
  simp only [hraw, habove] at hsel'
  refine ⟨_, _, exec_fltSel hready, hsel', rfl, ?_, ?_⟩
  · intro k hk
    obtain ⟨j, hj, rfl⟩ := List.mem_map.1 (show k ∈ [1, 2, 3, 4].map (10 + ·) from hk)
    obtain ⟨t, rfl, ht⟩ := exists_candidate hj
    rw [reg_score ht, reg_score ht]
  · intro x hx
    simp only [dmemByte_rowDone, dmemByte_storeScores, reg_dst]
    rw [dmemByte_memWrite_inside, dmemByte_memWrite_inside]
    all_goals rwa [length_taggedRow, length_memRead]

/-- Settles O42: over zeros Paeth's row is Sub's, and so is its score, which Sub is tried before. -/
theorem rowZeroPaethEqualsSub : Obligations.RowZeroPaethEqualsSub := by
  intro s cm bpp n hcfg hn hfits hsrc hdst hzero
  have hready := rowReady_of_configured hcfg hn hfits hsrc hdst
  have hprior (x : Nat) : (prevRow s n).getD x 0 = 0 := by
    by_cases hx : x < n
    · exact (getD_prevRow _ _ _ hx).trans (hzero x hx)
    · exact List.getD_eq_default _ _ (by simpa using hx)
  have hsame := filterBytes_paeth_eq_sub bpp (memRead s s.src.toNat n) hprior
  refine ⟨_, _, _, exec_fltFilt (t := .sub) hready rfl, exec_fltFilt (t := .paeth) hready rfl, exec_fltSel hready, ?_,
    bestFilter_ne_paeth hsame⟩
  intro x hx
  have hx' : x < (memRead s s.src.toNat n).length := by rwa [length_memRead]
  rw [dmemByte_rowDone, dmemByte_rowDone, reg_dst, dmemByte_taggedRow_byte _ _ _ _ _ _ hx',
    dmemByte_taggedRow_byte _ _ _ _ _ _ hx', hsame]

end Sys2Proof.Machine

/-! PROOFS. The pixel unit (42_pixel.md): what each command answers once its checks have passed, what its write then
reads as, and the two laws of the unit, by which the row commands of the filter unit are composed with it. -/

namespace Sys2Proof.Machine

open Sys2Proof.Claims

/-! ## The configuration check (R150) -/

theorem bitDepth_eq_eight_iff (cfg : BitVec 16) : bitDepth cfg = 8#8 ↔ cfg.toNat % 256 = 8 := by
  rw [← BitVec.toNat_inj, toNat_bitDepth]
  rfl

theorem imageFormat_of_model {cfg : BitVec 16} {m : ColorModel} (hdepth : cfg.toNat % 256 = 8)
    (hmodel : cfg.toNat / 256 = modelNumber m) : imageFormat cfg = .ok m := by
  rw [imageFormat_eq_ok, bitDepth_eq_eight_iff, toNat_colorModelField, ofCode_eq_some]
  exact ⟨hdepth, hmodel⟩

/-- A bad bit depth is raised whatever the color model. -/
theorem imageFormat_of_badDepth {cfg : BitVec 16} (hdepth : cfg.toNat % 256 ≠ 8) :
    imageFormat cfg = .error ⟨.unsupportedBitDepth, BitVec.ofNat 32 (cfg.toNat % 256)⟩ := by
  rw [imageFormat, if_neg (mt (bitDepth_eq_eight_iff cfg).1 hdepth), ← toNat_bitDepth, BitVec.ofNat_toNat]

theorem imageFormat_of_noModel {cfg : BitVec 16} (hdepth : cfg.toNat % 256 = 8)
    (hmodel : cfg.toNat / 256 ∉ [0, 2, 3, 4, 6]) :
    imageFormat cfg = .error ⟨.unsupportedColorModel, BitVec.ofNat 32 (cfg.toNat / 256)⟩ := by
  rw [← toNat_colorModelField] at hmodel ⊢
  rw [imageFormat, if_pos ((bitDepth_eq_eight_iff cfg).2 hdepth), (ofCode_eq_none _).2 hmodel, BitVec.ofNat_toNat]

/-- A row of R150's table is a color model. -/
theorem exists_model_of_mem_bppTable {e : Nat × Nat} (he : e ∈ bppTable) :
    ∃ m : ColorModel, e = (modelNumber m, m.bpp) := by
  simp only [bppTable, List.mem_cons, List.not_mem_nil, or_false] at he
  rcases he with rfl | rfl | rfl | rfl | rfl
  · exact ⟨.grayscale, rfl⟩
  · exact ⟨.rgb, rfl⟩
  · exact ⟨.palette, rfl⟩
  · exact ⟨.grayscaleAlpha, rfl⟩
  · exact ⟨.rgbAlpha, rfl⟩

/-- Settles O43: BPP is the configuration check's answer, or what it raises. -/
theorem bytesPerPixelTable : Obligations.BytesPerPixelTable := by
  intro cfg
  refine ⟨fun hdepth => ?_, fun hdepth e he hmodel => ?_, fun hdepth hmodel => ?_⟩
  · rw [bytesPerPixel, imageFormat_of_badDepth hdepth]
    rfl
  · obtain ⟨m, rfl⟩ := exists_model_of_mem_bppTable he
    exact (bytesPerPixel_eq_ok ..).2 ⟨m, imageFormat_of_model hdepth hmodel, rfl⟩
  · rw [bytesPerPixel, imageFormat_of_noModel hdepth hmodel]
    rfl

/-! ## The palette commands (R152, R153) -/

theorem palEntry_storePal_below (s : State) {es : List Rgba} {i : Nat} {p : Rgba} (h : es[i]? = some p) :
    palEntry (storePal s es) i = p := by
  obtain ⟨hi, -⟩ := List.getElem?_eq_some_iff.1 h
  rw [palEntry_storePal, if_pos hi, h, Option.getD_some]

/-- Entries at and above the number stored keep their values (R152, R153). -/
theorem palEntry_storePal_above (s : State) {es : List Rgba} {i : Nat} (h : es.length ≤ i) :
    palEntry (storePal s es) i = palEntry s i := by
  rw [palEntry_storePal, if_neg (by omega), Option.getD_none]

/-- Settles O44: the stored entries are the triples of the payload, read byte by byte. -/
theorem palLoadBuildsPalette : Obligations.PalLoadBuildsPalette := by
  rintro s k hthree hsrc rfl
  refine ⟨_, exec_of_ok ((palLoadEffect_eq_ok ..).2 ⟨hthree, hsrc, rfl⟩), rfl, fun i hi => ?_, fun i hi => ?_⟩
  · have hbyte (j : Nat) (hj : j < 3) :
        (memRead s s.src.toNat s.len.toNat).getD (3 * i + j) 0 = dmemByte s (reg s 0 + 3 * i + j) := by
      rw [reg_len] at hi
      rw [getD_memRead _ _ _ _ (by omega), Nat.add_assoc, reg_src]
    refine (palEntry_storePal_below s (getElem?_paletteOf _ _ i hi)).trans ?_
    rw [hbyte 1 (by omega), hbyte 2 (by omega), ← Nat.add_zero (3 * i), hbyte 0 (by omega)]
    rfl
  · exact palEntry_storePal_above s (by rwa [length_paletteOf])

/-- Settles O45: with a palette loaded the stored entries are the old ones with the payload's alphas. -/
theorem palTrnsSetsAlphas : Obligations.PalTrnsSetsAlphas := by
  intro s hsrc
  have hexec := exec_of_ok (i := .palTrns) ((palTrnsEffect_eq_ok s _).2 ⟨hsrc, rfl⟩)
  constructor
  · intro hpalv
    rwa [if_neg (by simp [hpalv])] at hexec
  · intro hpalv
    rw [if_pos hpalv] at hexec
    refine ⟨_, hexec, rfl, fun i hi => ?_, fun i hi => ?_⟩
    · have hbyte : (memRead s s.src.toNat s.len.toNat).getD i 0 = dmemByte s (reg s 0 + i) :=
        getD_memRead _ _ _ _ (hi.trans_le (Nat.min_le_left ..))
      rw [← hbyte]
      exact palEntry_storePal_below s (getElem?_transparentOf _ _ _ i hi)
    · exact palEntry_storePal_above s (by rwa [length_transparentOf])

/-! ## The row conversions (R155, R156) -/

theorem sameDmemOutside_memWrite (s : State) (a : Nat) {n : Nat} {bytes : List Byte} (h : bytes.length = n) :
    SameDmemOutside a n s (memWrite s a bytes) := by
  intro x hx
  exact dmemByte_memWrite_outside s a bytes x (by rwa [h])

/-- Settles O47: what is written is the read that was made before it. -/
theorem pxcPackCopiesRow : Obligations.PxcPackCopiesRow := by
  intro s hsrc hdst
  refine ⟨_, exec_of_ok ((pxcPackEffect_eq_ok ..).2 ⟨hsrc, hdst, rfl⟩), rfl, fun x hx => ?_,
    sameDmemOutside_memWrite s _ (length_memRead ..)⟩
  exact (dmemByte_memWrite_inside _ _ _ _ (by rwa [length_memRead])).trans (getD_memRead _ _ _ _ hx)

/-- Channel 0 R, 1 G, 2 B, 3 A: byte `ch` of a pixel (R154). -/
def Rgba.channel (p : Rgba) (ch : Nat) : Byte :=
  match ch with
  | 0 => p.r
  | 1 => p.g
  | 2 => p.b
  | _ => p.a

/-- Pixel `x` of the raw row at SRC, by the color model (R151). -/
def pixelAt (s : State) (m : ColorModel) (x : Nat) : Rgba :=
  let sample (i : Nat) : Byte := dmemByte s (s.src.toNat + i)
  match m with
  | .grayscale => ⟨sample x, sample x, sample x, 255#8⟩
  | .rgb => ⟨sample (3 * x), sample (3 * x + 1), sample (3 * x + 2), 255#8⟩
  | .palette => palEntry s (sample x).toNat
  | .grayscaleAlpha => ⟨sample (2 * x), sample (2 * x), sample (2 * x), sample (2 * x + 1)⟩
  | .rgbAlpha => ⟨sample (4 * x), sample (4 * x + 1), sample (4 * x + 2), sample (4 * x + 3)⟩

/-- Palette mode has every index of the row below PAL_COUNT. -/
def IndicesLoaded (s : State) (m : ColorModel) : Prop :=
  m = .palette → ∀ x < s.width.toNat, (dmemByte s (s.src.toNat + x)).toNat < s.palCount.toNat

theorem unpackPixel_eq_pixelAt {s : State} {m : ColorModel} {x : Nat} (hindex : IndicesLoaded s m)
    (hx : x < s.width.toNat) :
    unpackPixel m s (memRead s s.src.toNat (rowBytes s m.bpp)) x = .ok (pixelAt s m x) := by
  have hsample (i : Nat) (hi : i < s.width.toNat * m.bpp) :
      (memRead s s.src.toNat (rowBytes s m.bpp)).getD i 0 = dmemByte s (s.src.toNat + i) :=
    getD_memRead _ _ _ _ hi
  cases m with
  | palette =>
    have hloaded := hindex rfl x hx
    simp only [unpackPixel, hsample x (by rwa [ColorModel.bpp, Nat.mul_one])]
    rw [if_neg (by omega)]
    rfl
  | grayscale | rgb | grayscaleAlpha | rgbAlpha =>
    simp only [ColorModel.bpp] at hsample
    simp (disch := omega) only [unpackPixel, ColorModel.bpp, hsample]
    rfl

theorem unpackFrom_eq_pixelAt {s : State} {m : ColorModel} (hindex : IndicesLoaded s m) :
    unpackFrom m s (memRead s s.src.toNat (rowBytes s m.bpp)) 0 s.width.toNat =
      .ok ((List.range s.width.toNat).map (pixelAt s m)) := by
  refine (unpackFrom_eq_ok ..).2 ⟨by simp, fun i hi => ⟨pixelAt s m i, by simp [hi], ?_⟩⟩
  rw [Nat.zero_add, unpackPixel_eq_pixelAt hindex hi]

theorem exec_pxcUnpack {s : State} {m : ColorModel} (hformat : imageFormat s.imgcfg = .ok m)
    (hsrc : s.src.toNat + rowBytes s m.bpp ≤ s.params.dmemSize)
    (hdst : s.dst.toNat + 4 * s.width.toNat ≤ s.params.dmemSize) (hindex : IndicesLoaded s m) :
    exec .pxcUnpack s =
      .next (memWrite s s.dst.toNat (pixelBytes ((List.range s.width.toNat).map (pixelAt s m)))) :=
  exec_of_ok ((pxcUnpackEffect_eq_ok ..).2 ⟨m, _, hformat, hsrc, hdst, unpackFrom_eq_pixelAt hindex, rfl⟩)

/-- Byte `ch` of pixel `x` of an RGBA row lies at 4x + ch (R154). -/
theorem getD_pixelBytes {ps : List Rgba} {x ch : Nat} {p : Rgba} (h : ps[x]? = some p) (hch : ch < 4) :
    (pixelBytes ps).getD (4 * x + ch) 0 = p.channel ch := by
  obtain ⟨hr, hg, hb, ha⟩ := getElem?_pixelBytes ps x p h
  rw [List.getD_eq_getElem?_getD]
  interval_cases ch
  · rw [Nat.add_zero, hr]; rfl
  · rw [hg]; rfl
  · rw [hb]; rfl
  · rw [ha]; rfl

/-- A stored RGBA row, read back pixel by pixel. -/
theorem dmemByte_memWrite_pixelBytes (s : State) (a : Nat) {ps : List Rgba} {x ch : Nat} {p : Rgba}
    (h : ps[x]? = some p) (hch : ch < 4) :
    dmemByte (memWrite s a (pixelBytes ps)) (a + 4 * x + ch) = p.channel ch := by
  obtain ⟨hx, -⟩ := List.getElem?_eq_some_iff.1 h
  rw [Nat.add_assoc, dmemByte_memWrite_inside _ _ _ _ (by rw [length_pixelBytes]; omega), getD_pixelBytes h hch]

/-- The statements' table of channels is the pixels', entry by entry. -/
theorem channelOf_modelNumber (s : State) (m : ColorModel) (x : Nat) {ch : Nat} (hch : ch < 4) :
    channelOf s (modelNumber m) x ch = ((pixelAt s m x).channel ch).toNat := by
  cases m <;> interval_cases ch <;> rfl

theorem configured_of_imgcfg {s : State} {cfg : BitVec 16} {cm bpp : Nat} (h : s.imgcfg = cfg)
    (hcfg : cfg.toNat % 256 = 8 ∧ cfg.toNat / 256 = cm ∧ (cm, bpp) ∈ bppTable) : Configured s cm bpp := by
  unfold Configured
  rwa [reg_imgcfg, h]

/-- Settles O46: the written bytes are the channels of the row's pixels. -/
theorem pxcUnpackConvertsPixels : Obligations.PxcUnpackConvertsPixels := by
  intro s cm bpp hcfg hsrc hdst hindex
  obtain ⟨m, hformat, rfl, rfl⟩ := hcfg.model
  have hloaded : IndicesLoaded s m := by
    rintro rfl
    exact hindex rfl
  refine ⟨_, exec_pxcUnpack hformat hsrc hdst hloaded, rfl, fun x hx ch hch => ?_,
    sameDmemOutside_memWrite s _ (by simp [length_pixelBytes, reg_width])⟩
  rw [channelOf_modelNumber s m x hch]
  rw [reg_width] at hx
  exact congrArg BitVec.toNat (dmemByte_memWrite_pixelBytes s _ (by simp [hx]) hch)

/-! ## The round trip of a row (R157) -/

/-- The filtered bytes, read back from behind the tag of an emitted row. -/
theorem EmitsRow.memRead_filtered {s u : State} {bpp n : Nat} {t : FilterType} (h : EmitsRow s u bpp n t)
    (hb : 1 ≤ bpp) :
    memRead u (s.dst.toNat + 1) n = filterBytes t bpp (prevRow s n) (memRead s s.src.toNat n) := by
  obtain ⟨-, hbytes, -, -, -⟩ := h
  refine row_ext_getD (by rw [length_filterBytes, length_memRead, length_memRead]) fun x hx => ?_
  rw [length_filterBytes, length_memRead] at hx
  have hbyte := hbytes x hx
  rw [filtered_eq s bpp n t x hb hx] at hbyte
  rw [getD_memRead _ _ _ _ hx]
  exact BitVec.eq_of_toNat_eq (Int.ofNat_inj.1 hbyte)

/-- FLT.SEL and FLT.FILT, with any type, emit the row, and keep what a row command reads of the configuration. -/
theorem exec_encoder_emitsRow {s : State} {bpp n : Nat} {encoder : Instr} (h : RowReady s bpp n n (1 + n))
    (henc : encoder = .fltSel ∨ ∃ ft : BitVec 3, ft.toNat ≤ 4 ∧ encoder = .fltFilt ft) :
    ∃ t u, exec encoder s = .next u ∧ EmitsRow s u bpp n t ∧ u.params = s.params ∧ u.imgcfg = s.imgcfg ∧
      u.width = s.width := by
  rcases henc with rfl | ⟨ft, hft, rfl⟩
  · exact ⟨bestFilter bpp (prevRow s n) (memRead s s.src.toNat n), _, exec_fltSel h,
      emitsRow_rowDone h.bpp_pos _ rfl rfl rfl, by simp, by simp, by simp⟩
  · obtain ⟨t, ht⟩ := exists_eq_number hft
    exact ⟨t, _, exec_fltFilt h ht, emitsRow_rowDone h.bpp_pos t rfl rfl rfl, rfl, rfl, rfl⟩

/-- A row command is as ready on other buffers, where the parameters, IMGCFG and WIDTH are the same. -/
theorem RowReady.of_sameConfig {s u : State} {bpp n m k m' k' : Nat} (h : RowReady s bpp n m k)
    (hparams : u.params = s.params) (himgcfg : u.imgcfg = s.imgcfg) (hwidth : u.width = s.width)
    (hsrc : u.src.toNat + m' ≤ s.params.dmemSize) (hdst : u.dst.toNat + k' ≤ s.params.dmemSize) :
    RowReady u bpp n m' k' := by
  have hbytes : rowBytes u bpp = rowBytes s bpp := by rw [rowBytes, hwidth, rowBytes]
  refine ⟨?_, hbytes.trans h.length, hparams ▸ hsrc, hparams ▸ hdst⟩
  rw [rowPrologue_eq_ok, himgcfg, hbytes, hparams]
  exact (rowPrologue_eq_ok ..).1 h.prologue

/-- FLT.DEFILT of an emitted row, from the PREV it was emitted over, answers the raw row. -/
theorem exec_fltDefilt_of_emitsRow {s u : State} {bpp n : Nat} {t : FilterType} {d : Word}
    (h : EmitsRow s u bpp n t)
    (hready : RowReady { u with prev := s.prev, src := s.dst, dst := d } bpp n (1 + n) n) :
    let r := memRead s s.src.toNat n
    let w := { u with prev := s.prev, src := s.dst, dst := d }
    exec .fltDefilt w = .next (rowDone t r (memWrite w d.toNat r)) :=
  have ⟨htag, _⟩ := h
  exec_fltDefilt_of_filtered hready htag (h.memRead_filtered hready.bpp_pos)

/-- FLT.SEL or FLT.FILT, with any type, and then FLT.DEFILT from the same PREV give the raw row back (R131), and keep
what PXC.UNPACK reads of the configuration. -/
theorem encode_then_defilt {s : State} {bpp n : Nat} {encoder : Instr} {d : Word} (h : RowReady s bpp n n (1 + n))
    (henc : encoder = .fltSel ∨ ∃ ft : BitVec 3, ft.toNat ≤ 4 ∧ encoder = .fltFilt ft)
    (hd : d.toNat + n ≤ s.params.dmemSize) :
    ∃ u v, exec encoder s = .next u ∧
      exec .fltDefilt { u with prev := s.prev, src := s.dst, dst := d } = .next v ∧
      (∀ x < n, dmemByte v (d.toNat + x) = dmemByte s (s.src.toNat + x)) ∧ v.params = s.params ∧
      v.imgcfg = s.imgcfg ∧ v.width = s.width := by
  obtain ⟨t, u, hencode, hemits, hparams, himgcfg, hwidth⟩ := exec_encoder_emitsRow h henc
  have hready : RowReady { u with prev := s.prev, src := s.dst, dst := d } bpp n (1 + n) n :=
    h.of_sameConfig hparams himgcfg hwidth h.dst hd
  refine ⟨u, _, hencode, exec_fltDefilt_of_emitsRow hemits hready, fun x hx => ?_, hparams, himgcfg, hwidth⟩
  rw [dmemByte_rowDone, dmemByte_memWrite_inside _ _ _ _ (by rwa [length_memRead]), getD_memRead _ _ _ _ hx]

/-- In an RgbAlpha row channel `ch` of pixel `x` is byte 4x + ch (R151). -/
theorem channelOf_rgbAlpha (s : State) (x ch : Nat) : channelOf s 6 x ch = mem s (reg s 0 + 4 * x + ch) := rfl

/-- In RgbAlpha mode PXC.UNPACK copies the bytes of the raw row (R151). -/
theorem exec_pxcUnpack_rgbAlpha {s : State} {n : Nat} (hcfg : s.imgcfg = 0x0608#16) (hn : n = 4 * reg s 3)
    (hsrc : reg s 0 + n ≤ s.params.dmemSize) (hdst : reg s 1 + n ≤ s.params.dmemSize) :
    ∃ t, exec .pxcUnpack s = .next t ∧ ∀ x < n, dmemByte t (reg s 1 + x) = dmemByte s (reg s 0 + x) := by
  subst hn
  obtain ⟨t, hexec, -, hpixels, -⟩ := pxcUnpackConvertsPixels s 6 4 (configured_of_imgcfg hcfg (by decide))
    (by rwa [Nat.mul_comm]) hdst nofun
  refine ⟨t, hexec, fun x hx => BitVec.eq_of_toNat_eq ?_⟩
  have hchannel := hpixels (x / 4) (by omega) (x % 4) (by omega)
  rwa [channelOf_rgbAlpha, Nat.add_assoc, Nat.add_assoc, Nat.div_add_mod] at hchannel

/-- Settles O48: each byte unpacked is the byte defiltered, which is the byte packed, which is the pixel's. -/
theorem pixelRoundTrip : Obligations.PixelRoundTrip := by
  intro s encoder raw tagged raw' out n hcfg hn hfits henc hsrc hraw htagged hraw' hout
  subst hn
  obtain ⟨t, hpack, ht, hpacked, -⟩ := pxcPackCopiesRow { s with dst := raw } hsrc hraw
  generalize t.dmem = packed at ht
  subst ht
  have hready : RowReady { s with dmem := packed, src := raw, dst := tagged } 4 (4 * reg s 3) (4 * reg s 3)
      (1 + 4 * reg s 3) :=
    rowReady_of_configured (configured_of_imgcfg (cm := 6) hcfg (by decide)) (Nat.mul_comm ..) hfits hraw htagged
  obtain ⟨u, v, hencode, hdefilt, hraws, hparams, himgcfg, hwidth⟩ := encode_then_defilt hready henc hraw'
  have hn : 4 * reg s 3 = 4 * reg { v with src := raw', dst := out } 3 := congrArg (4 * BitVec.toNat ·) hwidth.symm
  obtain ⟨w, hunpack, hunpacked⟩ := exec_pxcUnpack_rgbAlpha (s := { v with src := raw', dst := out })
    (himgcfg.trans hcfg) hn (hparams ▸ hraw') (hparams ▸ hout)
  refine ⟨_, u, v, w, hpack, hencode, hdefilt, hunpack, fun x hx => ?_⟩
  calc dmemByte w (out.toNat + x)
      = dmemByte v (raw'.toNat + x) := hunpacked x hx
    _ = dmemByte { s with dmem := packed, src := raw, dst := tagged } (raw.toNat + x) := hraws x hx
    _ = dmemByte s (reg s 0 + x) := hpacked x hx

/-! ## Palette and transparency (R158) -/

/-- PAL.LOAD of `n` entries and PAL.TRNS of `m` bytes leave `n` loaded entries with their alphas, and DMEM as it was. -/
theorem palLoad_then_palTrns {s : State} {n m : Nat} {alphas : Word} (hn : n ≤ 256) (hmn : m ≤ n)
    (hpal : reg s 0 + 3 * n ≤ s.params.dmemSize) (halphas : alphas.toNat + m ≤ s.params.dmemSize) :
    ∃ t u, exec .palLoad { s with len := BitVec.ofNat 32 (3 * n) } = .next t ∧
      exec .palTrns { t with src := alphas, len := BitVec.ofNat 32 m } = .next u ∧
      (u.params = s.params ∧ u.palCount.toNat = n ∧ ∀ a, dmemByte u a = dmemByte s a) ∧
      ∀ i < n, (palEntry u i).a = if i < m then dmemByte s (alphas.toNat + i) else 255#8 := by
  have hlen : reg { s with len := BitVec.ofNat 32 (3 * n) } 2 = 3 * n := Nat.mod_eq_of_lt (by omega)
  obtain ⟨t, hload, ht, hopaque, -⟩ := palLoadBuildsPalette { s with len := BitVec.ofNat 32 (3 * n) } n
    (by rw [hlen]; omega) (by rwa [hlen]) (by rw [hlen]; omega)
  have hparams : t.params = s.params := by rw [ht]
  have hcount : t.palCount.toNat = n := by
    rw [ht]
    exact Nat.mod_eq_of_lt (by omega)
  have hread (a : Nat) : dmemByte t a = dmemByte s a := dmemByte_congr (by rw [ht]) (by rw [ht]) a
  have hlen' : reg { t with src := alphas, len := BitVec.ofNat 32 m } 2 = m := Nat.mod_eq_of_lt (by omega)
  obtain ⟨u, htrns, hu, hset, hkept⟩ := (palTrnsSetsAlphas { t with src := alphas, len := BitVec.ofNat 32 m }
    (by rw [hlen']; exact hparams ▸ halphas)).2 (by rw [ht])
  have hmin : min (reg { t with src := alphas, len := BitVec.ofNat 32 m } 2)
      (reg { t with src := alphas, len := BitVec.ofNat 32 m } 9) = m := by
    rw [hlen', reg_palCount, hcount, Nat.min_eq_left hmn]
  rw [hmin] at hset hkept
  refine ⟨t, u, hload, htrns, ⟨by rw [hu, hparams], by rw [hu, hcount], fun a => ?_⟩, fun i hi => ?_⟩
  · exact (dmemByte_congr (by rw [hu]) (by rw [hu]) a).trans (hread a)
  · by_cases him : i < m
    · rw [if_pos him]
      exact (congrArg Rgba.a (hset i him)).trans (hread _)
    · rw [if_neg him, hkept i (by omega)]
      exact congrArg Rgba.a (hopaque i hi)

/-- In Palette mode PXC.UNPACK gives each pixel the alpha of its index's entry (R151, R155). -/
theorem exec_pxcUnpack_paletteAlpha {s : State} {w : Nat} (hcfg : s.imgcfg = 0x0308#16) (hw : reg s 3 = w)
    (hsrc : reg s 0 + w ≤ s.params.dmemSize) (hdst : reg s 1 + 4 * w ≤ s.params.dmemSize)
    (hindex : ∀ x < w, mem s (reg s 0 + x) < reg s 9) :
    ∃ t, exec .pxcUnpack s = .next t ∧
      ∀ x < w, mem t (reg s 1 + 4 * x + 3) = (palEntry s (mem s (reg s 0 + x))).a.toNat := by
  subst hw
  obtain ⟨t, hexec, -, hpixels, -⟩ := pxcUnpackConvertsPixels s 3 1 (configured_of_imgcfg hcfg (by decide))
    (by rwa [Nat.mul_one]) hdst (fun _ => hindex)
  exact ⟨t, hexec, fun x hx => hpixels x hx 3 (by omega)⟩

/-- Settles O49: PXC.UNPACK looks up the alpha that PAL.TRNS has set, or that PAL.LOAD has set and PAL.TRNS left. -/
theorem paletteTransparencyLaw : Obligations.PaletteTransparencyLaw := by
  intro s n m w alphas row out hn hmn hw hpal halphas hrow hout hindex
  obtain ⟨t, u, hload, htrns, ⟨hparams, hcount, hread⟩, halpha⟩ := palLoad_then_palTrns hn hmn hpal halphas
  have hmem (a : Nat) : mem u a = mem s a := congrArg BitVec.toNat (hread a)
  obtain ⟨v, hunpack, hpixels⟩ := exec_pxcUnpack_paletteAlpha
    (s := { u with imgcfg := 0x0308#16, width := BitVec.ofNat 32 w, src := row, dst := out }) rfl
    (Nat.mod_eq_of_lt hw) (hparams ▸ hrow) (hparams ▸ hout)
    (fun x hx => ((hmem _).trans_lt (hindex x hx)).trans_eq hcount.symm)
  refine ⟨t, u, v, hload, htrns, hunpack, fun x hx => ?_⟩
  calc mem v (out.toNat + 4 * x + 3)
      = (palEntry u (mem u (row.toNat + x))).a.toNat := hpixels x hx
    _ = (palEntry u (mem s (row.toNat + x))).a.toNat := by rw [hmem]
    _ = if mem s (row.toNat + x) < m then mem s (alphas.toNat + mem s (row.toNat + x)) else 255 := by
      rw [halpha _ (hindex x hx)]
      split <;> rfl

end Sys2Proof.Machine

/-! PROOFS. The sequencer commands (43_sequencer.md): NOP and CLRERR are their effects; SETLO and SETHI are each one
write to an operand register. -/

namespace Sys2Proof.Machine

open Sys2Proof.Claims

/-- A write to an operand register changes only the five fields that hold operand registers. -/
theorem writeOperand_frame (s : State) (rd : BitVec 4) (v : Word) :
    writeOperand s rd v = { s with
      src := (writeOperand s rd v).src, dst := (writeOperand s rd v).dst, len := (writeOperand s rd v).len,
      width := (writeOperand s rd v).width, imgcfg := (writeOperand s rd v).imgcfg } := by
  obtain ⟨_, _, _, _, _, h⟩ := writeOperand_eq s rd v
  rw [h]

/-- IMGCFG reads as a 16-bit number (10_state.md R26). -/
theorem reg_imgcfg_lt (s : State) : reg s 4 < 2 ^ 16 := reg_imgcfg s ▸ s.imgcfg.isLt

/-- Settles O19: the value written has the old high half, which IMGCFG drops. -/
theorem setloWritesLowHalf : Obligations.SetloWritesLowHalf := by
  intro s rd imm16 hrd
  refine ⟨_, exec_setlo hrd imm16 s, ?_, (readReg_writeOperand_other s rd · _), writeOperand_frame ..⟩
  rw [reg_writeOperand_same _ _ hrd, toNat_withLowHalf, ← reg_toNat]
  split
  · omega
  · rfl

/-- Settles O20: the value written has the old low half, which is all that IMGCFG keeps of it. -/
theorem sethiWritesHighHalf : Obligations.SethiWritesHighHalf := by
  intro s rd imm16 hrd
  refine ⟨_, exec_sethi hrd imm16 s, ?_, (readReg_writeOperand_other s rd · _), writeOperand_frame ..⟩
  rw [reg_writeOperand_same _ _ hrd, toNat_withHighHalf, ← reg_toNat]
  split
  next himgcfg =>
    have hlt := reg_imgcfg_lt s
    rw [himgcfg]
    omega
  next => rfl

/-- Settles O17: NOP's effect is the state itself. -/
theorem nopChangesNothing : Obligations.NopChangesNothing := fun _ => exec_of_ok rfl

/-- Settles O18: CLRERR's effect is the error return, which writes ERR and ERRCODE. -/
theorem clrerrEndsErrorState : Obligations.ClrerrEndsErrorState := fun _ => exec_of_ok rfl

end Sys2Proof.Machine

/-! PROOFS. Errors (60_exceptions.md): the step at CMDQ's head, and a command's checks in R203's order. An effect raises
just what the first failing check of a list says (`RaisesFirst`): this holds of each check of the model alone, and of
effects in sequence over the two lists in a row. -/

namespace Sys2Proof.Machine

open Sys2Proof.Claims

/-! ## The step at CMDQ's head (R200, R206) -/

theorem discards_eq_true (w : Word) (s : State) : discards w s = true ↔ s.err = true ∧ w ≠ 0x01000000#32 := by
  simp [discards]

/-- The step's inversion for a queue with a known head: discard, error entry for an illegal word, or a command, each on
the state without that word. -/
theorem step_cases_of_head {s : State} {w : Word} {rest : List Word} (hq : s.cmdq = w :: rest) :
    (discards w s = true ∧ step s = .next { s with cmdq := rest }) ∨
      (discards w s = false ∧ (∃ e, decode w = .error e) ∧
        step s = .next (errorEntry w (illegalCommand w) { s with cmdq := rest })) ∨
      (discards w s = false ∧ ∃ i, decode w = .ok i ∧ step s = exec i { s with cmdq := rest }) := by
  have hpop : popCmdq s = { s with cmdq := rest } := by rw [popCmdq, hq, List.tail_cons]
  rcases step_cases s with ⟨hnil, -⟩ | ⟨w', rest', hq', hcase⟩
  · simp [hq] at hnil
  · obtain ⟨rfl, -⟩ := List.cons.inj (hq.symm.trans hq')
    rwa [hpop] at hcase

/-- Every command ends in a next state (R226). -/
theorem exec_completes (i : Instr) (s : State) : ∃ t, exec i s = .next t := ⟨_, exec_eq_settle i s⟩

/-- Settles O7: the word is gone in each case of the step, and no command changes the queue or the parameters. -/
theorem stepAlwaysCompletes : Obligations.StepAlwaysCompletes := by
  intro s w rest hq
  rcases step_cases_of_head hq with ⟨-, hstep⟩ | ⟨-, -, hstep⟩ | ⟨-, i, -, hstep⟩
  · exact ⟨_, hstep, rfl, rfl, rfl⟩
  · exact ⟨_, hstep, rfl, rfl, rfl⟩
  · obtain ⟨t, ht⟩ := exec_completes i { s with cmdq := rest }
    exact ⟨t, hstep.trans ht, (exec_writes ht).frame⟩

/-- Settles O9: outside the error state only error entry sets ERR, by an illegal word or by the command the word
encodes. -/
theorem errorsArePrecise : Obligations.ErrorsArePrecise := by
  intro s t w rest hq herr h ht
  rcases step_cases_of_head hq with ⟨hd, -⟩ | ⟨-, -, hstep⟩ | ⟨-, i, hi, hstep⟩
  · obtain ⟨herr', -⟩ := (discards_eq_true ..).1 hd
    simp [herr] at herr'
  · cases hstep.symm.trans h
    exact ⟨_, code_mem_writtenCodes (k := .illegalCommand) rfl, w, rfl⟩
  · have hw := exec_writes (hstep.symm.trans h)
    obtain ⟨-, rfl⟩ := encodeOfDecode w i hi
    exact hw.of_error_entered (.inr (.inr ⟨herr, ht⟩))

/-- Settles O5: the word is not discarded, and it decodes. -/
theorem stepRunsDecodedCommand : Obligations.StepRunsDecodedCommand := by
  intro s w rest i hq hi hruns
  rcases step_cases_of_head hq with ⟨hd, -⟩ | ⟨-, ⟨e, he⟩, -⟩ | ⟨-, j, hj, hstep⟩
  · obtain ⟨herr, hw⟩ := (discards_eq_true ..).1 hd
    exact (hruns.elim (by simp [herr]) hw).elim
  · simp [hi] at he
  · cases hi.symm.trans hj
    exact hstep

/-- Settles O6: CLRERR's word runs CLRERR, and every other word is discarded. -/
theorem errorStateStep : Obligations.ErrorStateStep := by
  intro s w rest hq herr
  constructor
  · rintro rfl
    rw [stepRunsDecodedCommand s _ rest .clrerr hq (by decide) (.inr rfl), clrerrEndsErrorState]
  · intro hw
    have hd := (discards_eq_true ..).2 ⟨herr, hw⟩
    rcases step_cases_of_head hq with ⟨-, hstep⟩ | ⟨hd', -⟩ | ⟨hd', -⟩
    · exact hstep
    · simp [hd] at hd'
    · simp [hd] at hd'

/-- Settles O8: with a word in the queue the other case of the step cannot be. -/
theorem emptyQueueIdles : Obligations.EmptyQueueIdles := by
  intro s hq
  rcases step_cases s with ⟨-, hstep⟩ | ⟨w, rest, hq', -⟩
  · exact hstep
  · simp [hq] at hq'

/-! ## The first failing check (R202, R203) -/

/-- The code and the info that an effect raises, none where it answers. -/
def raiseOf {α : Type} : Except Raise α → Option (Byte × Word)
  | .ok _ => none
  | .error e => some (e.kind.code, e.info)

/-- A failed check, as the error latch holds it. -/
def latched (c : Nat × Nat) : Byte × Word := (BitVec.ofNat 8 c.1, BitVec.ofNat 32 c.2)

/-- An effect raises the first check of a list that fails, and nothing where none does. -/
def RaisesFirst {α : Type} (cs : List Check) (x : Except Raise α) : Prop := raiseOf x = (cs.findSome? id).map latched

theorem raiseOf_eq_none {α : Type} {x : Except Raise α} : raiseOf x = none ↔ ∃ a, x = .ok a := by
  cases x <;> simp [raiseOf]

theorem raiseOf_eq_some {α : Type} {x : Except Raise α} {code : Byte} {info : Word} :
    raiseOf x = some (code, info) ↔ ∃ e, x = .error e ∧ e.kind.code = code ∧ e.info = info := by
  cases x <;> simp [raiseOf]

theorem raisesFirst_ok {α : Type} (a : α) : RaisesFirst [] (.ok a) := rfl

/-- Effects in sequence check in sequence. -/
theorem RaisesFirst.bind {α β : Type} {cs ds : List Check} {x : Except Raise α} {f : α → Except Raise β}
    (hx : RaisesFirst cs x) (hf : ∀ a, x = .ok a → RaisesFirst ds (f a)) : RaisesFirst (cs ++ ds) (x >>= f) := by
  unfold RaisesFirst at *
  rw [List.findSome?_append, Option.map_or, ← hx]
  cases x with
  | error e => rfl
  | ok a => exact hf a rfl

/-- A check before others: it raises where its condition holds, and leaves the rest to them elsewhere. -/
theorem raisesFirst_failsIf {α : Type} {c : Prop} [Decidable c] {code info : Nat} {cs : List Check}
    {x : Except Raise α} (hfail : c → raiseOf x = some (latched (code, info)))
    (hpass : ¬ c → RaisesFirst cs x) :
    RaisesFirst (failsIf c code info :: cs) x := by
  by_cases hc : c
  · rw [failsIf, if_pos hc]
    exact hfail hc
  · rw [failsIf, if_neg hc]
    exact hpass hc

/-- The info of a check that names a word is that word. -/
theorem latched_toNat (code : Nat) (w : Word) : latched (code, w.toNat) = (BitVec.ofNat 8 code, w) := by
  rw [latched, BitVec.ofNat_toNat, BitVec.setWidth_eq]

/-- R203 step 6, and the checks after it. -/
theorem raisesFirst_checkRange {α : Type} {s : State} {a : Word} {n : Nat} {cs : List Check} {x : Except Raise α}
    (hx : RaisesFirst cs x) : RaisesFirst (rangeCheck s a.toNat n :: cs) (checkRange s a n >>= fun _ => x) := by
  refine raisesFirst_failsIf (fun hc => ?_) (fun hc => ?_)
  · rw [checkRange, if_pos hc, latched_toNat]
    rfl
  · rw [checkRange, if_neg hc]
    exact hx

/-- R203 steps 2 and 3, the bit depth first. -/
theorem raisesFirst_imageFormat (s : State) : RaisesFirst [depthCheck s, modelCheck s] (imageFormat s.imgcfg) := by
  unfold depthCheck modelCheck
  rw [reg_imgcfg]
  refine raisesFirst_failsIf (fun hdepth => ?_) fun hdepth => raisesFirst_failsIf (fun hmodel => ?_) fun hmodel => ?_
  · rw [imageFormat_of_badDepth hdepth]
    rfl
  · rw [imageFormat_of_noModel (not_not.1 hdepth) hmodel]
    rfl
  · obtain ⟨m, hm⟩ := Option.ne_none_iff_exists'.1 (mt (ofCode_eq_none _).1 hmodel)
    rw [imageFormat_of_model (not_not.1 hdepth) ((ofCode_eq_some ..).1 hm)]
    exact raisesFirst_ok m

theorem raiseOf_map {α β : Type} (f : α → β) (x : Except Raise α) : raiseOf (x.map f) = raiseOf x := by cases x <;> rfl

theorem raisesFirst_bytesPerPixel (s : State) : RaisesFirst [depthCheck s, modelCheck s] (bytesPerPixel s.imgcfg) :=
  (raiseOf_map ..).trans (raisesFirst_imageFormat s)

/-- R203 steps 2 to 4. -/
theorem raisesFirst_rowPrologue (s : State) :
    RaisesFirst [depthCheck s, modelCheck s, rowCheck s] (rowPrologue s) := by
  refine (raisesFirst_bytesPerPixel s).bind fun bpp hbpp => ?_
  unfold rowCheck
  rw [rowLen_eq hbpp]
  refine raisesFirst_failsIf (fun hc => ?_) (fun hc => ?_)
  · have hinfo : BitVec.ofNat 32 (rowBytes s bpp % 2 ^ 32) = BitVec.ofNat 32 (rowBytes s bpp) :=
      BitVec.eq_of_toNat_eq (Nat.mod_mod ..)
    rw [if_pos hc, latched, hinfo]
    rfl
  · rw [if_neg hc]
    exact raisesFirst_ok bpp

/-- R203 step 1, for a register field (43_sequencer.md R182, R183). -/
theorem raisesFirst_checkOperandReg (i : Instr) (rd : BitVec 4) :
    RaisesFirst [failsIf (5 ≤ rd.toNat) 0x20 (encode i).toNat] (checkOperandReg i rd) := by
  refine raisesFirst_failsIf (fun hc => ?_) (fun hc => ?_)
  · rw [checkOperandReg, if_neg (by omega), latched_toNat]
    rfl
  · rw [checkOperandReg, if_pos (by omega)]
    exact raisesFirst_ok ()

/-- R203 step 1, for a filter type field (41_filter.md R126). -/
theorem raisesFirst_filterOfField (i : Instr) (ft : BitVec 3) :
    RaisesFirst [failsIf (5 ≤ ft.toNat) 0x20 (encode i).toNat] (filterOfField i ft) := by
  refine raisesFirst_failsIf (fun hc => ?_) (fun hc => ?_)
  · rw [filterOfField, (FilterType.ofNumber_eq_none _).2 hc, latched_toNat]
    rfl
  · obtain ⟨t, ht⟩ := exists_eq_number (k := ft.toNat) (by omega)
    rw [(filterOfField_eq_ok ..).2 ht]
    exact raisesFirst_ok t

/-- R203 step 7, for a tag byte (41_filter.md R125). -/
theorem raisesFirst_filterOfTag (tag : Byte) :
    RaisesFirst [failsIf (4 < tag.toNat) 0x06 tag.toNat] (filterOfTag tag) := by
  refine raisesFirst_failsIf (fun hc => ?_) (fun hc => ?_)
  · rw [filterOfTag, (FilterType.ofNumber_eq_none _).2 hc, latched, BitVec.ofNat_toNat]
    rfl
  · obtain ⟨t, ht⟩ := exists_eq_number (k := tag.toNat) (by omega)
    rw [(filterOfTag_eq_ok ..).2 ht]
    exact raisesFirst_ok t

/-- The tag of a scanline is its first byte (41_filter.md R120). -/
theorem headD_memRead (s : State) (a n : Nat) : (memRead s a (1 + n)).headD 0 = dmemByte s a := by
  simp [memRead, Nat.add_comm 1 n, List.range_succ_eq_map]

/-- R203 step 7, for the scanline that FLT.DEFILT has read. -/
theorem raisesFirst_filterOfTag_memRead (s : State) (n : Nat) :
    RaisesFirst [failsIf (4 < mem s (reg s 0)) 0x06 (mem s (reg s 0))]
      (filterOfTag ((memRead s s.src.toNat (1 + n)).headD 0)) := by
  rw [headD_memRead]
  exact raisesFirst_filterOfTag _

/-! ### Palette indices (42_pixel.md R155) -/

theorem raiseOf_bind_pure {α β : Type} (x : Except Raise α) (f : α → β) :
    raiseOf (x >>= fun a => pure (f a)) = raiseOf x := by cases x <;> rfl

/-- A row raises what its first bad pixel raises. -/
theorem raiseOf_unpackFrom (m : ColorModel) (s : State) (row : List Byte) (x k : Nat) :
    raiseOf (unpackFrom m s row x k) = (List.range k).findSome? fun i => raiseOf (unpackPixel m s row (x + i)) := by
  induction k generalizing x with
  | zero => rfl
  | succ k ih =>
    rw [List.range_succ_eq_map, List.findSome?_cons, List.findSome?_map, unpackFrom, Nat.add_zero]
    cases hpixel : unpackPixel m s row x with
    | error e => rfl
    | ok p =>
      rw [ok_bind, raiseOf_bind_pure, ih]
      simp only [raiseOf, Function.comp_def, Nat.succ_eq_add_one, Nat.add_assoc, Nat.add_comm 1]

theorem map_getD_range {α : Type} (l : List α) (d : α) : (List.range l.length).map (l.getD · d) = l :=
  List.ext_getElem (by simp) fun i _ hi => by simp [hi]

/-- A row of indices raises its first one at or above PAL_COUNT. -/
theorem raiseOf_unpackFrom_palette (s : State) (row : List Byte) :
    raiseOf (unpackFrom .palette s row 0 row.length) =
      ((row.map BitVec.toNat).find? fun idx => decide (reg s 9 ≤ idx)).map fun idx => latched (0x10, idx) := by
  have hpixel (i : Nat) : raiseOf (unpackPixel .palette s row (0 + i)) =
      (Option.guard (fun b => decide (reg s 9 ≤ b.toNat)) (row.getD i 0)).map fun b => latched (0x10, b.toNat) := by
    rw [Nat.zero_add, Option.map_guard, unpackPixel, reg_palCount]
    simp only [decide_eq_true_eq, latched, BitVec.ofNat_toNat]
    split <;> rfl
  simp only [raiseOf_unpackFrom, hpixel]
  rw [← Function.comp_def (Option.map _), ← List.map_findSome?, List.find?_map, Option.map_map, ← List.findSome?_guard]
  conv_rhs => rw [← map_getD_range row 0, List.findSome?_map]
  rfl

/-- The last check of PXC.UNPACK: the first index of the row at or above PAL_COUNT. -/
def indexCheck (s : State) : Check :=
  if reg s 4 / 256 = 3 then
    ((memList s (reg s 0) (reg s 3)).find? fun idx => decide (reg s 9 ≤ idx)).map fun idx => (0x10, idx)
  else none

/-- R203 step 7, for the pixels of a row: only the palette model has indices to check. -/
theorem raisesFirst_unpackFrom {s : State} {m : ColorModel} (hm : imageFormat s.imgcfg = .ok m) :
    RaisesFirst [indexCheck s] (unpackFrom m s (memRead s s.src.toNat (rowBytes s m.bpp)) 0 s.width.toNat) := by
  obtain ⟨-, hmodel⟩ := (imageFormat_eq_ok_iff s m).1 hm
  unfold RaisesFirst indexCheck
  rw [hmodel]
  cases m with
  | palette =>
    have h := raiseOf_unpackFrom_palette s (memRead s s.src.toNat s.width.toNat)
    rw [length_memRead, map_toNat_memRead] at h
    simpa [ColorModel.bpp, rowBytes, modelNumber, Function.comp_def, reg_src, reg_width] using h
  | grayscale | rgb | grayscaleAlpha | rgbAlpha =>
    rw [unpackFrom_eq_pixelAt (fun h => by cases h)]
    rfl

/-! ### Every command -/

/-- The effect of every command raises the first of its checks that fails. -/
theorem effectOf_raisesFirst (i : Instr) (s : State) : RaisesFirst (checksOf i s) (effectOf i s) := by
  cases i with
  | nop | clrerr | crcInit | crcUpdb | fltStart => exact raisesFirst_ok _
  | setlo rd half | sethi rd half => exact (raisesFirst_checkOperandReg _ rd).bind fun _ _ => raisesFirst_ok _
  | crcUpd | crcStore => exact raisesFirst_checkRange <| raisesFirst_ok _
  | crcCheck =>
    refine raisesFirst_checkRange ?_
    rw [be32At_eq, reg_src, reg_crcVal]
    refine raisesFirst_failsIf (fun hc => ?_) (fun hc => ?_)
    · rw [if_neg (by rwa [Ne, BitVec.toNat_inj] at hc), latched_toNat]
      rfl
    · rw [if_pos (by rwa [ne_eq, not_not, BitVec.toNat_inj] at hc)]
      exact raisesFirst_ok s
  | fltDefilt =>
    refine (raisesFirst_rowPrologue s).bind fun bpp hrow => ?_
    rw [rowLen_of_rowPrologue hrow]
    exact raisesFirst_checkRange <| raisesFirst_checkRange <|
      (raisesFirst_filterOfTag_memRead ..).bind fun _ _ => raisesFirst_ok _
  | fltFilt ft =>
    refine (raisesFirst_filterOfField _ ft).bind fun _ _ => (raisesFirst_rowPrologue s).bind fun bpp hrow => ?_
    rw [rowLen_of_rowPrologue hrow]
    exact raisesFirst_checkRange <| raisesFirst_checkRange <| raisesFirst_ok _
  | fltSel =>
    refine (raisesFirst_rowPrologue s).bind fun bpp hrow => ?_
    rw [rowLen_of_rowPrologue hrow]
    exact raisesFirst_checkRange <| raisesFirst_checkRange <| raisesFirst_ok _
  | fltChklen =>
    refine (raisesFirst_bytesPerPixel s).bind fun bpp hbpp => ?_
    rw [rowLen_eq hbpp, reg_len]
    refine raisesFirst_failsIf (fun hc => ?_) (fun hc => ?_)
    · rw [if_neg hc, latched_toNat]
      rfl
    · rw [if_pos (not_not.1 hc)]
      exact raisesFirst_ok s
  | palLoad =>
    rw [checksOf, reg_len]
    refine raisesFirst_failsIf (fun hc => ?_) (fun hc => ?_)
    · rw [effectOf, palLoadEffect, if_pos hc, latched_toNat]
      rfl
    · rw [effectOf, palLoadEffect, if_neg hc]
      exact raisesFirst_checkRange <| raisesFirst_ok _
  | palTrns =>
    refine raisesFirst_checkRange ?_
    split
    · exact raisesFirst_ok _
    · exact raisesFirst_ok _
  | pxcUnpack =>
    refine (raisesFirst_imageFormat s).bind fun m hm => ?_
    rw [rowLen_eq ((bytesPerPixel_eq_ok ..).2 ⟨m, hm, rfl⟩)]
    exact raisesFirst_checkRange <| raisesFirst_checkRange <|
      (raisesFirst_unpackFrom hm).bind fun _ _ => raisesFirst_ok _
  | pxcPack =>
    exact raisesFirst_checkRange <| raisesFirst_checkRange <| raisesFirst_ok _

/-- Settles O10: a command settles its effect, which raises the first failing check, and without one keeps the latch. -/
theorem firstFailingCheckRaises : Obligations.FirstFailingCheckRaises := by
  intro i s
  have hraises : raiseOf (effectOf i s) = (firstFailing i s).map latched := effectOf_raisesFirst i s
  refine ⟨fun code info hfirst => ?_, fun hfirst hi => ?_, fun w rest hq herr hw => ?_⟩
  · rw [hfirst] at hraises
    obtain ⟨e, he, hcode, hinfo⟩ := raiseOf_eq_some.1 hraises
    rw [exec_of_error he, errorEntry, hcode, hinfo]
    rfl
  · rw [hfirst] at hraises
    obtain ⟨t, ht⟩ := raiseOf_eq_none.1 hraises
    obtain ⟨-, -, -, hcmd, hinfo, hlatch⟩ := effectOf_frame ht
    obtain ⟨herr, hcode⟩ := hlatch hi
    exact ⟨t, exec_of_ok ht, herr, hcode, hcmd, hinfo⟩
  · rw [step_of_illegalWord hq herr (not_exists.2 hw), popCmdq, hq]
    rfl

end Sys2Proof.Machine

/-! PROOFS. Reset (70_reset_and_hazards.md R230), and the queue along a weakly fair execution (R242, R243): the
sequencer's step takes CMDQ's head, and only a push makes the queue longer. -/

namespace Sys2Proof.Machine

open Sys2Proof.Claims

/-! ## Reset (R230) -/

/-- Settles O12: the host's reset is a reset of the block, whose registers read as those of `State.reset`. -/
theorem hostResetRestoresResetValues : Obligations.HostResetRestoresResetValues := by
  intro s
  obtain ⟨hzero, hcrc, -⟩ := resetValues
  exact ⟨State.resetOf s.params (s.drawEpoch + 1), rfl, rfl, rfl, hzero, hcrc, fun _ => rfl, fun _ => rfl⟩

/-! ## CMDQ in one event (20_memory.md R60) -/

/-- The step takes CMDQ's head, where there is one. -/
theorem step_cmdq {s t : State} (h : step s = .next t) : t.cmdq = s.cmdq.tail := by
  cases hq : s.cmdq with
  | nil =>
    cases (emptyQueueIdles s hq).symm.trans h
    exact hq
  | cons w rest =>
    obtain ⟨u, hstep, hrest, -⟩ := stepAlwaysCompletes s w rest hq
    cases hstep.symm.trans h
    exact hrest

/-- The sequencer's event leaves one word less in CMDQ. -/
theorem Takes.sequencer_cmdq_length {s t : State} (h : Takes s .sequencer t) : t.cmdq.length < s.cmdq.length := by
  obtain ⟨hne, hstep⟩ := h
  have hpos := List.length_pos_iff.2 hne
  rw [step_cmdq hstep, List.length_tail]
  omega

/-- No event but a push makes CMDQ longer. -/
theorem Takes.cmdq_length_le {s t : State} {e : Event} (h : Takes s e t)
    (hpush : ∀ w reply, e ≠ .host (.push w) reply) : t.cmdq.length ≤ s.cmdq.length := by
  cases e with
  | sequencer => exact h.sequencer_cmdq_length.le
  | host act reply =>
    rcases hostStep_cases h with ⟨rfl, -⟩ | ⟨w, rfl, -⟩ | ⟨a, b, -, -, -, rfl, -⟩ | ⟨-, rfl, -⟩
    · exact le_rfl
    · exact absurd rfl (hpush w reply)
    · exact le_rfl
    · exact Nat.zero_le _
  | idle => exact (congrArg (·.cmdq.length) h).le

theorem Takes.reachable {p : Params} {s t : State} {e : Event} (h : Takes s e t) (hs : Reachable p s) :
    Reachable p t := by
  cases e with
  | sequencer =>
    obtain ⟨hne, hstep⟩ := h
    exact .sequencer hs hne hstep
  | host act reply => exact .host hs h
  | idle =>
    cases h
    exact hs

/-! ## CMDQ along an execution (R242, R243) -/

section
variable {p : Params} {states : Nat → State} {events : Nat → Event} (hexec : Execution p states events)
include hexec

theorem Execution.reachable (n : Nat) : Reachable p (states n) := by
  induction n with
  | zero =>
    obtain ⟨epoch, hstart⟩ := hexec.starts
    exact hstart ▸ .reset epoch
  | succ n ih => exact (hexec.moves n).reachable ih

theorem Execution.cmdq_fits (hp : p.Legal) (n : Nat) : (states n).cmdq.length ≤ p.cmdqDepth := by
  obtain ⟨hinv, hparams⟩ := reachableStatesMeetInvariant p _ hp (hexec.reachable n)
  exact hparams ▸ hinv.cmdqFits

/-- A queue that is full has room after the sequencer's next event. -/
theorem Execution.eventually_has_room (hp : p.Legal) (hfair : WeaklyFair states events) (n : Nat) :
    ∃ m, n ≤ m ∧ (states m).cmdq.length < p.cmdqDepth := by
  obtain ⟨m, hnm, hempty | hseq⟩ := hfair n
  · obtain ⟨-, -, hdepth⟩ := hp
    refine ⟨m, hnm, ?_⟩
    rw [hempty, List.length_nil]
    omega
  · have hlt := (hseq ▸ hexec.moves m).sequencer_cmdq_length
    exact ⟨m + 1, by omega, hlt.trans_le (hexec.cmdq_fits hp m)⟩

/-- While the host pushes nothing CMDQ never grows. -/
theorem Execution.cmdq_length_antitone {n : Nat} (hpush : ∀ m, n ≤ m → ∀ w reply, events m ≠ .host (.push w) reply)
    {i j : Nat} (hni : n ≤ i) (hij : i ≤ j) : (states j).cmdq.length ≤ (states i).cmdq.length := by
  induction j, hij using Nat.le_induction with
  | base => exact le_rfl
  | succ j hij ih => exact ((hexec.moves j).cmdq_length_le (hpush j (hni.trans hij))).trans ih

/-- A queue of at most `bound` words is empty after as many of the sequencer's events, or before. -/
theorem Execution.eventually_cmdq_nil (hfair : WeaklyFair states events) (bound : Nat) {n : Nat}
    (hpush : ∀ m, n ≤ m → ∀ w reply, events m ≠ .host (.push w) reply) (hbound : (states n).cmdq.length ≤ bound) :
    ∃ m, n ≤ m ∧ (states m).cmdq = [] := by
  induction bound generalizing n with
  | zero => exact ⟨n, le_rfl, List.length_eq_zero_iff.1 (Nat.le_zero.1 hbound)⟩
  | succ bound ih =>
    obtain ⟨m, hnm, hempty | hseq⟩ := hfair n
    · exact ⟨m, hnm, hempty⟩
    · have hlt := (hseq ▸ hexec.moves m).sequencer_cmdq_length
      have hle := hexec.cmdq_length_antitone hpush le_rfl hnm
      obtain ⟨m', hm', hempty⟩ := ih (n := m + 1) (fun k hk => hpush k (by omega)) (by omega)
      exact ⟨m', by omega, hempty⟩

end

/-- In an idle block the end of a run with its work done is ERR = 0 (60_exceptions.md R226). -/
theorem completed_iff_of_idle {s : State} (hidle : busy s = false) : s.completed = true ↔ s.err = false := by
  simp [State.completed, hidle]

/-- Settles O52: the sequencer's events, which fairness gives, each take a word, and without a push nothing adds one. -/
theorem fairRunsDrainQueue : Obligations.FairRunsDrainQueue := by
  intro p states events hp hexec hfair
  refine ⟨hexec.eventually_has_room hp hfair, fun n hpush => ?_⟩
  obtain ⟨m, hnm, hempty⟩ := hexec.eventually_cmdq_nil hfair _ hpush le_rfl
  refine ⟨m, hnm, fun k hmk => ?_⟩
  have hlen := hexec.cmdq_length_antitone hpush hnm hmk
  rw [hempty, List.length_nil, Nat.le_zero, List.length_eq_zero_iff] at hlen
  have hidle := (busy_eq_false (states k)).2 hlen
  exact ⟨hidle, completed_iff_of_idle hidle⟩

end Sys2Proof.Machine
